-- ==== Sys2Proof/Word.lean ====
section
/-! DEFINITION. The word types of the block (spec 00_scope.md R5 to R7): the byte, the 32-bit word, the
16-word cipher state and the chain. -/

namespace Sys2Proof

/-- A byte is 8 bits (R6). -/
abbrev Byte := BitVec 8

/-- A word is 32 bits; every register and every arithmetic word has this width (R5, R6). -/
abbrev Word := BitVec 32

/-- A block viewed as its 16 words (R10, R140); also the working vector of the BLAKE2s compression (R173). -/
abbrev Block := Vector Word 16

/-- A chain or working array: `2r` consecutive blocks (R10). -/
abbrev Chain := List Block

/-- The eight words of a BLAKE2s chain value (R31). -/
abbrev ChainValue := Vector Word 8

/-- `rotl(a, n)` of R7. -/
abbrev rotl (a : Word) (n : Nat) : Word := a.rotateLeft n

/-- `rotr(a, n)` of R7. -/
abbrev rotr (a : Word) (n : Nat) : Word := a.rotateRight n

end Sys2Proof
end

