-- ==== Sys2Proof/Syntax.lean ====
section
/-! DEFINITION. The command set: one constructor per row of the opcode map (spec 30_encoding.md R99), its
arguments the encoded fields of the row's format (R92), named as the table names them. -/

namespace Sys2Proof

/-- The cipher that the CIPHER bit of formats M and MB selects (R98). -/
inductive Cipher where
  | salsa
  | chacha
deriving DecidableEq, Repr

/-- The 15 commands (R99). A field holds exactly the bits of its format, legal or not: the command's own rule
checks the value (R90 step 3). -/
inductive Instr where
  /-- OPC 0x00, format U (R250). -/
  | nop
  /-- OPC 0x01, format U (R121). -/
  | copy
  /-- OPC 0x02, format U (R122). -/
  | erase
  /-- OPC 0x03, format U (R123). -/
  | xor
  /-- OPC 0x04, format U (R124). -/
  | swap
  /-- OPC 0x08, format P (R146). -/
  | salsa (rounds : BitVec 8)
  /-- OPC 0x09, format P (R147). -/
  | chacha (rounds : BitVec 8)
  /-- OPC 0x10, format H (R183). -/
  | b2sInit (keylen outlen : BitVec 6)
  /-- OPC 0x11, format U (R184). -/
  | b2sUpdate
  /-- OPC 0x12, format U (R185). -/
  | b2sFinal
  /-- OPC 0x13, format U (R186). -/
  | b2sCompress
  /-- OPC 0x14, format H (R187). -/
  | b2sHash (keylen outlen : BitVec 6)
  /-- OPC 0x18, format K (R215). -/
  | fastkdf (olenm1 slenm1 : BitVec 8)
  /-- OPC 0x20, format MB (R232). -/
  | blkmix (rexp : BitVec 3) (cipher : Cipher) (rounds : BitVec 8)
  /-- OPC 0x21, format M (R236). -/
  | smix (nexp : BitVec 5) (rexp : BitVec 3) (cipher : Cipher) (rounds : BitVec 8)
deriving DecidableEq, Repr

end Sys2Proof
end

