-- ==== Sys2Proof/Decode.lean ====
section
/-! DEFINITION. Decoding and encoding of command words (spec 30_encoding.md R90 to R99). -/

namespace Sys2Proof

/-- The six formats (R92). -/
inductive Format where
  | U
  | P
  | H
  | K
  | MB
  | M
deriving DecidableEq, Repr

/-- The two ways a word selects no command (R90). -/
inductive DecodeError where
  /-- OPC is not in the opcode map (R100). -/
  | illegalOpcode
  /-- A reserved bit of the format of OPC is 1 (R101). -/
  | reservedField
deriving DecidableEq, Repr

/-- The reserved bits of a format, as a mask (R92). -/
def reservedMask : Format → Word
  | .U => 0xFFFFFF00
  | .P => 0xFFFF0000
  | .H => 0xFFC0C000
  | .K => 0xFF000000
  | .MB => 0xFFF00000
  | .M => 0xFE000000

/-- `OPC = w[7:0]` (R90). -/
def opcodeField (w : Word) : BitVec 8 := w.extractLsb' 0 8

/-- `ROUNDS = w[15:8]` (R94, R98). -/
def roundsField (w : Word) : BitVec 8 := w.extractLsb' 8 8

/-- `OUTLEN = w[13:8]` (R95). -/
def outlenField (w : Word) : BitVec 6 := w.extractLsb' 8 6

/-- `KEYLEN = w[21:16]` (R95). -/
def keylenField (w : Word) : BitVec 6 := w.extractLsb' 16 6

/-- `SLENM1 = w[15:8]` (R97). -/
def slenm1Field (w : Word) : BitVec 8 := w.extractLsb' 8 8

/-- `OLENM1 = w[23:16]` (R97). -/
def olenm1Field (w : Word) : BitVec 8 := w.extractLsb' 16 8

/-- `CIPHER = w[16]`: 0 selects Salsa20 and 1 selects ChaCha20 (R98). -/
def cipherField (w : Word) : Cipher := if w.getLsbD 16 then .chacha else .salsa

/-- `REXP = w[19:17]` (R98). -/
def rexpField (w : Word) : BitVec 3 := w.extractLsb' 17 3

/-- `NEXP = w[24:20]` (R98). -/
def nexpField (w : Word) : BitVec 5 := w.extractLsb' 20 5

/-- `MIXMODE = w[16:8]` (R98). -/
def mixmodeField (w : Word) : BitVec 9 := w.extractLsb' 8 9

/-- The opcode map (R99): the format of an OPC and the command its fields make, or none when OPC is not in the
map (R100). -/
def opcodeMap (opc : BitVec 8) : Option (Format × (Word → Instr)) :=
  match opc.toNat with
  | 0x00 => some (.U, fun _ => .nop)
  | 0x01 => some (.U, fun _ => .copy)
  | 0x02 => some (.U, fun _ => .erase)
  | 0x03 => some (.U, fun _ => .xor)
  | 0x04 => some (.U, fun _ => .swap)
  | 0x08 => some (.P, fun w => .salsa (roundsField w))
  | 0x09 => some (.P, fun w => .chacha (roundsField w))
  | 0x10 => some (.H, fun w => .b2sInit (keylenField w) (outlenField w))
  | 0x11 => some (.U, fun _ => .b2sUpdate)
  | 0x12 => some (.U, fun _ => .b2sFinal)
  | 0x13 => some (.U, fun _ => .b2sCompress)
  | 0x14 => some (.H, fun w => .b2sHash (keylenField w) (outlenField w))
  | 0x18 => some (.K, fun w => .fastkdf (olenm1Field w) (slenm1Field w))
  | 0x20 => some (.MB, fun w => .blkmix (rexpField w) (cipherField w) (roundsField w))
  | 0x21 => some (.M, fun w => .smix (nexpField w) (rexpField w) (cipherField w) (roundsField w))
  | _ => none

/-- Decoding an accepted word (R90): the opcode first, then the reserved bits of its format, then the fields. -/
def decode (w : Word) : Except DecodeError Instr :=
  match opcodeMap (opcodeField w) with
  | none => .error .illegalOpcode
  | some (format, fields) =>
    if w &&& reservedMask format = 0 then .ok (fields w) else .error .reservedField

/-- The CIPHER bit (R98). -/
def cipherBit : Cipher → BitVec 1
  | .salsa => 0
  | .chacha => 1

/-- The command word of a command: the pattern of R99, most significant bits first. -/
def encode : Instr → Word
  | .nop => 0#24 ++ 0x00#8
  | .copy => 0#24 ++ 0x01#8
  | .erase => 0#24 ++ 0x02#8
  | .xor => 0#24 ++ 0x03#8
  | .swap => 0#24 ++ 0x04#8
  | .salsa rounds => 0#16 ++ rounds ++ 0x08#8
  | .chacha rounds => 0#16 ++ rounds ++ 0x09#8
  | .b2sInit keylen outlen => 0#10 ++ keylen ++ 0#2 ++ outlen ++ 0x10#8
  | .b2sUpdate => 0#24 ++ 0x11#8
  | .b2sFinal => 0#24 ++ 0x12#8
  | .b2sCompress => 0#24 ++ 0x13#8
  | .b2sHash keylen outlen => 0#10 ++ keylen ++ 0#2 ++ outlen ++ 0x14#8
  | .fastkdf olenm1 slenm1 => 0#8 ++ olenm1 ++ slenm1 ++ 0x18#8
  | .blkmix rexp cipher rounds => 0#12 ++ rexp ++ cipherBit cipher ++ rounds ++ 0x20#8
  | .smix nexp rexp cipher rounds => 0#7 ++ nexp ++ rexp ++ cipherBit cipher ++ rounds ++ 0x21#8

/-- What the decoder reads from the low `nbits` bits of `w`, every bit above them zero. A command is one 32-bit
word (R91), so the word is the whole instruction. -/
def decodeTableWord (nbits w : Nat) : Option Instr :=
  match decode (BitVec.ofNat 32 (w % 2 ^ nbits)) with
  | .ok i => some i
  | .error _ => none

end Sys2Proof
end

