-- ==== Sys2Proof/Config.lean ====
section
/-! DEFINITION. The parameters of spec 00_scope.md R5 and the values the spec leaves free. -/

namespace Sys2Proof

/-- The parameters of R5 that are open or that a model may change. They are fixed for a machine: no step
changes them. They stand in the state so that every statement about every state holds for every value of them. -/
structure Params where
  /-- `MEM_SIZE`: size of the buffer memory in bytes, 1 to 2^32, OPEN. -/
  memSize : Nat
  /-- `R_MAX`: the largest r that BLKMIX and SMIX accept, a power of two from 1 to 128. -/
  rMax : Nat
  /-- `REG_BASE`: base address of the register block in the host's address space, OPEN (R294). -/
  regBase : Nat
  /-- `N_EXP_BIAS`: used by the host's profile decoding only (R259). -/
  nExpBias : Nat
deriving DecidableEq, Repr

/-- The ranges R5 gives the parameters. -/
abbrev Params.wf (p : Params) : Prop :=
  1 ≤ p.memSize ∧ p.memSize ≤ 2 ^ 32 ∧ p.rMax ∈ [1, 2, 4, 8, 16, 32, 64, 128]

/-- `R_MAX` = 128 and `N_EXP_BIAS` = 0 are R5's values. DESIGN CHOICE (log 1): `MEM_SIZE` = 2^32, the whole
address space, and `REG_BASE` = 0. -/
def Params.default : Params where
  memSize := 2 ^ 32
  rMax := 128
  regBase := 0
  nExpBias := 0

/-- A byte the spec leaves arbitrary: the one at `address` on the `occasion`-th use of a free value (I2, I5). -/
opaque Config.freeByte (occasion address : Nat) : Byte

/-- A word the spec leaves arbitrary: the `index`-th word of the `occasion`-th use of a free value (I2, I3). -/
opaque Config.freeWord (occasion index : Nat) : Word

/-- How many host accesses can precede the completion of a command: finite and not specified (R325, I12). -/
opaque Config.latency (occasion : Nat) : Nat

end Sys2Proof
end

