-- ==== Sys2Proof/Machine/State.lean ====
section
/-! DEFINITION. The state of the block, the reasons a step can stop, and the state after reset (spec 10_state.md).
The block has no program counter (R29): a command reaches it as a word written to CMD, and the host's pending
accesses stand in the state as a list the step reads. -/

namespace Sys2Proof.Machine

/-- The error codes of R281, NONE among them. Codes 11 to 255 are never produced, so they have no name. -/
inductive ErrorCode where
  | none
  | illegalOpcode
  | reservedField
  | rounds
  | param
  | state
  | length
  | align
  | range
  | alloc
  | overlap
deriving DecidableEq, Repr

/-- The fields of STATUS (R24). Bits 31:5 read 0 and ignore writes, so nothing holds them. -/
structure Status where
  busy : Bool
  done : Bool
  err : Bool
  anyerr : Bool
  lost : Bool
deriving DecidableEq, Repr

/-- A BLAKE2s context: the architectural one (R31 to R35), or a private one (R37, R39). -/
structure Ctx where
  /-- H0..H7 (R31). -/
  h : ChainValue
  /-- The byte counter T, of which T1 and T0 are the two halves (R32). -/
  t : BitVec 64
  /-- F0 (R33). -/
  f0 : Word
  /-- F1 (R33). -/
  f1 : Word
  /-- BUF, the 128-byte input buffer (R34). -/
  buf : Vector Byte 128
  /-- BUFLEN, its fill cursor (R34). -/
  buflen : Nat
  /-- OUTLEN of B2SCFG (R35). -/
  outlen : BitVec 6
  /-- KEYLEN of B2SCFG (R35). -/
  keylen : BitVec 6
  /-- VALID of B2SCFG (R35). -/
  valid : Bool
deriving DecidableEq, Repr

/-- The context after reset (R41). -/
def Ctx.reset : Ctx where
  h := Vector.replicate 8 0
  t := 0
  f0 := 0
  f1 := 0
  buf := Vector.replicate 128 0
  buflen := 0
  outlen := 0
  keylen := 0
  valid := false

/-- The buffer memory: address and byte, addresses strictly rising, no byte equal to what an unlisted address
reads as (R36). -/
abbrev Memory := List Host.Cell

/-- One move of the host (R11), the only agent beside the core. A register access carries the word offset
`reg_addr[7:2]` (R20), so no access of another width or alignment can be written (R63, I6). -/
inductive HostAction where
  /-- A 32-bit register write (R21). -/
  | wr (offset : BitVec 6) (value : Word)
  /-- A 32-bit register read (R21, R22). -/
  | rd (offset : BitVec 6)
  /-- A byte written straight to buffer memory (R60). -/
  | memWr (address : Word) (value : Byte)
  /-- A byte read straight from buffer memory (R60). -/
  | memRd (address : Word)
  /-- Read STATUS until BUSY = 0 (R103). -/
  | wait
  /-- Read STATUS and ERRCODE, and give the rest of the sequence up when the ERR read is 1 (R251 step 6, R266). -/
  | abortOnErr
  /-- The level of the `rst` input (R310). -/
  | rst (level : Bool)
deriving DecidableEq, Repr

/-- The whole state. -/
structure State where
  /-- The parameters of R5: fixed, no step changes them. -/
  cfg : Params
  /-- CMD: the last accepted word (R23). -/
  cmd : Word
  /-- STATUS (R24), BUSY and DONE of which are the `busy` and `done` outputs (R20). -/
  status : Status
  /-- ERRCODE (R25). -/
  errcode : ErrorCode
  /-- ARG0 (R28). -/
  arg0 : Word
  /-- ARG1 (R28). -/
  arg1 : Word
  /-- ARG2 (R28). -/
  arg2 : Word
  /-- ARG3 (R28). -/
  arg3 : Word
  /-- The architectural BLAKE2s context (R31 to R35). -/
  ctx : Ctx
  /-- The buffer memory (R36). -/
  mem : Memory
  /-- The level of the `rst` input port (R20, R310). -/
  rst : Bool
  /-- `reg_rdata`: what the register port last returned (R20). -/
  regRdata : Word
  /-- The byte the host's last read of buffer memory returned (R60). -/
  memRdata : Byte
  /-- The model's own (log 2): the host's pending moves, in order. -/
  host : List HostAction
  /-- The model's own (log 3): host moves left before the running command must complete. -/
  latency : Nat
  /-- The model's own (log 4): the host wrote buffer memory while the running command was BUSY (R320). -/
  disturbed : Bool
  /-- The model's own (log 5): the number of free values used so far. -/
  freeCtr : Nat
deriving DecidableEq, Repr

/-- Why the machine stops with a fault. Commands raise none: an error of R281 is a next state. -/
inductive Fault where
  /-- Raised by a host access to a byte address at or above `MEM_SIZE`, where R36 says there is no memory. Safe:
  the spec gives such an access no effect, and the model stops. -/
  | hostAccessOutsideMemory (address : Word)
deriving DecidableEq, Repr

/-- Why the machine has no meaning for an instruction. -/
inductive Refusal where
  /-- Raised by an arm of `exec` without a meaning; no arm is. Safe: the model stops. -/
  | notModelled (mnemonic : String)
deriving DecidableEq, Repr

/-- The state after reset of a block with the given parameters (R41, R310), memory with nothing listed. -/
def State.resetWith (cfg : Params) : State where
  cfg := cfg
  cmd := 0
  status := { busy := false, done := false, err := false, anyerr := false, lost := false }
  errcode := .none
  arg0 := 0
  arg1 := 0
  arg2 := 0
  arg3 := 0
  ctx := Ctx.reset
  mem := []
  rst := false
  regRdata := 0
  memRdata := 0
  host := []
  latency := 0
  disturbed := false
  freeCtr := 0

/-- The machine right after reset (R41). -/
def State.reset : State := State.resetWith Params.default

end Sys2Proof.Machine
end

