-- ==== Sys2Proof/Machine/Ops.lean ====
section
/-! DEFINITION. The operations the commands share: loops, bytes and words, buffer memory, acceptance,
completion, and raising an error (spec 00_scope.md R8, 20_memory.md, 10_state.md R23 and R26,
60_exceptions.md R285). -/

namespace Sys2Proof.Machine

/-- `for i in 0 .. n-1: s = body i s`, in increasing order. -/
def forLoop {σ : Type} : Nat → (Nat → σ → σ) → σ → σ
  | 0, _, s => s
  | n + 1, body, s => body n (forLoop n body s)

/-- What an unlisted address of buffer memory reads as. DESIGN CHOICE (log 6): power-on memory is unspecified
(R311, I4); the model reads 0. -/
def unlistedByte : Byte := 0

/-- The canonical form of a memory: addresses strictly rising, no entry equal to an unlisted byte. -/
abbrev Memory.wf (m : Memory) : Prop :=
  (m.map Prod.fst).Pairwise (· < ·) ∧ ∀ c ∈ m, c.2 ≠ unlistedByte

/-- Every listed address lies in a memory of the given size (R36). -/
abbrev Memory.within (m : Memory) (memSize : Nat) : Prop :=
  ∀ c ∈ m, c.1 < memSize

/-- `MemRead(addr, 1)` (R8, R66). -/
def Memory.read : Memory → Nat → Byte
  | [], _ => unlistedByte
  | (a, b) :: m, addr => if addr = a then b else Memory.read m addr

/-- `MemWrite(addr, 1, v)` (R8), keeping the canonical form. -/
def Memory.write : Memory → Nat → Byte → Memory
  | [], addr, v => if v = unlistedByte then [] else [(addr, v)]
  | (a, b) :: m, addr, v =>
    if addr < a then
      if v = unlistedByte then (a, b) :: m else (addr, v) :: (a, b) :: m
    else if addr = a then
      if v = unlistedByte then m else (a, v) :: m
    else (a, b) :: Memory.write m addr v

/-- `MemRead(addr, n)`: the `n` bytes from `addr` up, in address order (R8). -/
def Memory.readBytes (m : Memory) (addr n : Nat) : List Byte :=
  (List.range n).map fun k => m.read (addr + k)

/-- `MemWrite(addr, n, v)`: byte `i` of `v` to `addr + i`, in increasing address order (R8). -/
def Memory.writeBytes : Memory → Nat → List Byte → Memory
  | m, _, [] => m
  | m, addr, v :: vs => Memory.writeBytes (m.write addr v) (addr + 1) vs

/-- The word whose bytes are `s[at .. at+3]`, the first the least significant (`le32`, R8, R61). -/
def le32 (s : List Byte) (at_ : Nat) : Word :=
  s.getD (at_ + 3) 0 ++ s.getD (at_ + 2) 0 ++ s.getD (at_ + 1) 0 ++ s.getD at_ 0

/-- The four bytes of a word, the least significant first (`LEbytes`, R8, R61). -/
def wordBytes (w : Word) : List Byte :=
  [w.extractLsb' 0 8, w.extractLsb' 8 8, w.extractLsb' 16 8, w.extractLsb' 24 8]

/-- `LEbytes(w0, .., wk)` (R8). -/
def leBytes (ws : List Word) : List Byte := ws.flatMap wordBytes

/-- `Words(s)` for a 64-byte string (R8, R140). -/
def blockOfBytes (s : List Byte) : Block := Vector.ofFn fun k => le32 s (4 * k.val)

/-- A block as its 64 bytes (R140). -/
def bytesOfBlock (x : Block) : List Byte := leBytes x.toList

/-- Acceptance of a word written to CMD while idle (R23). The running command starts undisturbed, and its
latency is a free value (R325). -/
def accept (w : Word) (s : State) : State :=
  { s with
    cmd := w
    status := { s.status with busy := true, done := false, err := false }
    errcode := .none
    latency := Config.latency s.freeCtr
    disturbed := false
    freeCtr := s.freeCtr + 1 }

/-- Completion without an error (R26). -/
def complete (s : State) : State :=
  { s with status := { s.status with busy := false, done := true } }

/-- Completion with an error: the block's one way of taking an exception (R26, R285, R287). The return from one is
the next acceptance, or the host's W1C write to STATUS (R288). -/
def raiseError (c : ErrorCode) (s : State) : State :=
  { s with
    status := { s.status with busy := false, done := true, err := true, anyerr := true }
    errcode := c }

end Sys2Proof.Machine
end

