-- ==== Sys2Proof/Machine/Operands.lean ====
section
/-! DEFINITION. The operands of the commands: regions, the values a command's fields stand for, the checks of
each command in their order (spec 60_exceptions.md R283), its read and write sets (20_memory.md R70), and the
frame every command runs in. -/

namespace Sys2Proof.Machine

/-- The region `(base, size)` of R9. -/
structure Region where
  base : Nat
  size : Nat
deriving DecidableEq, Repr

/-- `InRange(a, n)`: `n = 0` or `a + n ≤ MEM_SIZE`, without wrap-around (R9). DEDUCED (log 18): so also for an ERASE
that ends at 2^32 in a memory of 2^32 bytes, which a corner case of R122 calls out of range. -/
def inRange (s : State) (r : Region) : Bool :=
  r.size == 0 || r.base + r.size ≤ s.cfg.memSize

/-- Two regions share a byte (R9). -/
def regionsOverlap (r q : Region) : Bool :=
  0 < r.size && 0 < q.size && r.base < q.base + q.size && q.base < r.base + r.size

/-- The address lies in the region. -/
def Region.holds (r : Region) (addr : Nat) : Bool :=
  r.base ≤ addr && addr < r.base + r.size

/-- The address lies in one of the regions. -/
def inRegions (rs : List Region) (addr : Nat) : Bool := rs.any fun r => r.holds addr

/-- The region `(a, n)` of an operand register and a length. -/
def region (a : Word) (n : Nat) : Region := ⟨a.toNat, n⟩

/-- `r = 2^REXP` (R98). -/
def chainR (rexp : BitVec 3) : Nat := 2 ^ rexp.toNat

/-- `N = 2^NEXP` (R98). -/
def smixN (nexp : BitVec 5) : Nat := 2 ^ nexp.toNat

/-- A chain is `128 * r` bytes (R71). -/
def chainLen (rexp : BitVec 3) : Nat := 128 * chainR rexp

/-- `SLEN = SLENM1 + 1` (R97). -/
def slenOf (slenm1 : BitVec 8) : Nat := slenm1.toNat + 1

/-- `OLEN = OLENM1 + 1` (R97). -/
def olenOf (olenm1 : BitVec 8) : Nat := olenm1.toNat + 1

/-- One check: whether it fails, and the code it then raises. -/
structure Check where
  fails : Bool
  code : ErrorCode
deriving DecidableEq, Repr

/-- ROUNDS is 0 or odd (R94). -/
def checkRounds (rounds : BitVec 8) : Check :=
  ⟨rounds == 0 || rounds.toNat % 2 != 0, .rounds⟩

/-- OUTLEN outside 1..32 or KEYLEN above 32 (R95). -/
def checkLengths (keylen outlen : BitVec 6) : Check :=
  ⟨outlen.toNat < 1 || 32 < outlen.toNat || 32 < keylen.toNat, .param⟩

/-- `2^REXP > R_MAX` (R98). -/
def checkR (s : State) (rexp : BitVec 3) : Check :=
  ⟨s.cfg.rMax < chainR rexp, .param⟩

/-- NEXP = 0 (R98). -/
def checkNexp (nexp : BitVec 5) : Check := ⟨nexp == 0, .param⟩

/-- The architectural context is not open (R184, R185). -/
def checkOpen (s : State) : Check := ⟨!s.ctx.valid, .state⟩

/-- ARG3 is not a multiple of 32 (R120). -/
def checkLength (s : State) : Check := ⟨s.arg3.toNat % 32 != 0, .length⟩

/-- A word operand is not a multiple of 4 (R65). -/
def checkAlign (operands : List Word) : Check := ⟨operands.any fun a => a.toNat % 4 != 0, .align⟩

/-- An operand region is not in range (R68). -/
def checkRange (s : State) (rs : List Region) : Check := ⟨rs.any fun r => !inRange s r, .range⟩

/-- SMIX's V region is not in range (R235). -/
def checkAlloc (s : State) (v : Region) : Check := ⟨!inRange s v, .alloc⟩

/-- SMIX's X and V regions overlap (R236). -/
def checkOverlap (x v : Region) : Check := ⟨regionsOverlap x v, .overlap⟩

/-- The X region of BLKMIX and SMIX. -/
def xRegion (s : State) (rexp : BitVec 3) : Region := region s.arg0 (chainLen rexp)

/-- The V region of SMIX: `N * 128 * r` bytes (R71). -/
def vRegion (s : State) (nexp : BitVec 5) (rexp : BitVec 3) : Region :=
  region s.arg1 (smixN nexp * chainLen rexp)

/-- The checks of each command after RESERVED_FIELD, in order (R283). -/
def checksOf (i : Instr) (s : State) : List Check :=
  let len := s.arg3.toNat
  match i with
  | .nop => []
  | .copy =>
    [checkLength s, checkAlign [s.arg0, s.arg1], checkRange s [region s.arg0 len, region s.arg1 len]]
  | .erase => [checkLength s, checkAlign [s.arg0], checkRange s [region s.arg0 len]]
  | .xor =>
    [checkLength s, checkAlign [s.arg0, s.arg1], checkRange s [region s.arg0 len, region s.arg1 len]]
  | .swap =>
    [checkLength s, checkAlign [s.arg0, s.arg1], checkRange s [region s.arg0 len, region s.arg1 len]]
  | .salsa rounds => [checkRounds rounds, checkAlign [s.arg0], checkRange s [region s.arg0 64]]
  | .chacha rounds => [checkRounds rounds, checkAlign [s.arg0], checkRange s [region s.arg0 64]]
  | .b2sInit keylen outlen =>
    [checkLengths keylen outlen, checkRange s [region s.arg1 keylen.toNat]]
  | .b2sUpdate => [checkOpen s, checkRange s [region s.arg1 len]]
  | .b2sFinal => [checkOpen s, checkRange s [region s.arg0 s.ctx.outlen.toNat]]
  | .b2sCompress => [checkRange s [region s.arg1 64]]
  | .b2sHash keylen outlen =>
    [checkLengths keylen outlen,
      checkRange s [region s.arg0 outlen.toNat, region s.arg1 keylen.toNat, region s.arg2 len]]
  | .fastkdf olenm1 slenm1 =>
    [checkRange s [region s.arg0 (olenOf olenm1), region s.arg1 80, region s.arg2 (slenOf slenm1)]]
  | .blkmix rexp _ rounds =>
    [checkRounds rounds, checkR s rexp, checkAlign [s.arg0], checkRange s [xRegion s rexp]]
  | .smix nexp rexp _ rounds =>
    [checkRounds rounds, checkR s rexp, checkNexp nexp, checkAlign [s.arg0, s.arg1],
      checkRange s [xRegion s rexp], checkAlloc s (vRegion s nexp rexp),
      checkOverlap (xRegion s rexp) (vRegion s nexp rexp)]

/-- The first check that fails ends the command (R282). -/
def firstError (cs : List Check) : Option ErrorCode := (cs.find? Check.fails).map Check.code

/-- The bytes a command that raises no error reads (R70). -/
def readSet (i : Instr) (s : State) : List Region :=
  let len := s.arg3.toNat
  match i with
  | .nop => []
  | .copy => [region s.arg1 len]
  | .erase => []
  | .xor => [region s.arg0 len, region s.arg1 len]
  | .swap => [region s.arg0 len, region s.arg1 len]
  | .salsa _ => [region s.arg0 64]
  | .chacha _ => [region s.arg0 64]
  | .b2sInit keylen _ => [region s.arg1 keylen.toNat]
  | .b2sUpdate => [region s.arg1 len]
  | .b2sFinal => []
  | .b2sCompress => [region s.arg1 64]
  | .b2sHash keylen _ => [region s.arg1 keylen.toNat, region s.arg2 len]
  | .fastkdf _ slenm1 => [region s.arg1 80, region s.arg2 (slenOf slenm1)]
  | .blkmix rexp _ _ => [xRegion s rexp]
  | .smix nexp rexp _ _ => [xRegion s rexp, vRegion s nexp rexp]

/-- The bytes a command that raises no error writes (R70). -/
def writeSet (i : Instr) (s : State) : List Region :=
  let len := s.arg3.toNat
  match i with
  | .nop => []
  | .copy => [region s.arg0 len]
  | .erase => [region s.arg0 len]
  | .xor => [region s.arg0 len]
  | .swap => [region s.arg0 len, region s.arg1 len]
  | .salsa _ => [region s.arg0 64]
  | .chacha _ => [region s.arg0 64]
  | .b2sInit _ _ => []
  | .b2sUpdate => []
  | .b2sFinal => [region s.arg0 s.ctx.outlen.toNat]
  | .b2sCompress => []
  | .b2sHash _ outlen => [region s.arg0 outlen.toNat]
  | .fastkdf olenm1 _ => [region s.arg0 (olenOf olenm1)]
  | .blkmix rexp _ _ => [xRegion s rexp]
  | .smix nexp rexp _ _ => [xRegion s rexp, vRegion s nexp rexp]

/-- The write set of the command that is running: none when the core is idle, and none when the command will raise
an error (R284). -/
def runningWriteSet (s : State) : List Region :=
  if s.status.busy then
    match decode s.cmd with
    | .ok i => if (firstError (checksOf i s)).isNone then writeSet i s else []
    | .error _ => []
  else []

/-- Every byte of the region gets an arbitrary value (I2, I5). -/
def scrambleRegion (occasion : Nat) (m : Memory) (r : Region) : Memory :=
  forLoop r.size (fun k m => m.write (r.base + k) (Config.freeByte occasion (r.base + k))) m

/-- Every byte of the regions gets an arbitrary value. -/
def scramble (occasion : Nat) (rs : List Region) (m : Memory) : Memory :=
  rs.foldl (scrambleRegion occasion) m

/-- The bytes `lo .. hi-1` of BUF get arbitrary values. -/
def scrambleBuf (occasion lo hi : Nat) (buf : Vector Byte 128) : Vector Byte 128 :=
  Vector.ofFn fun k => if lo ≤ k.val ∧ k.val < hi then Config.freeByte occasion k.val else buf[k]

/-- An arbitrary chain value. -/
def freeChain (occasion : Nat) : ChainValue := Vector.ofFn fun k => Config.freeWord occasion k.val

/-- The part of the BLAKE2s context that a command computes from bytes it reads gets arbitrary values: the words of
H a compression wrote, and the bytes of BUF filled from memory (log 4). DESIGN CHOICE (log 17): H is arbitrary after
every B2S_UPDATE that compresses, also when the one block compressed was buffered whole by earlier commands
(BUFLEN = 64 and at most 64 new bytes). `c` is the context the command left, `s` the state it started from. -/
def scrambleCtx (occasion : Nat) (i : Instr) (s : State) (c : Ctx) : Ctx :=
  match i with
  | .b2sInit keylen _ => { c with buf := scrambleBuf occasion 0 keylen.toNat c.buf }
  | .b2sUpdate =>
    if s.ctx.buflen + s.arg3.toNat ≤ 64 then
      { c with buf := scrambleBuf occasion s.ctx.buflen c.buflen c.buf }
    else { c with h := freeChain occasion, buf := scrambleBuf occasion 0 c.buflen c.buf }
  | .b2sCompress => { c with h := freeChain occasion }
  | _ => c

/-- The result of a command during which the host wrote buffer memory is undefined: every byte of the write set,
and what the context takes from memory, is arbitrary (R320, I2). `s` is the state the command started from, `t` the
one its effect gives. -/
def disturb (i : Instr) (s t : State) : State :=
  if s.disturbed then
    { t with
      mem := scramble s.freeCtr (writeSet i s) t.mem
      ctx := scrambleCtx (s.freeCtr + 1) i s t.ctx
      freeCtr := s.freeCtr + 2 }
  else t

/-- Every command: its checks in order, the first that fails raising its error with no other effect, else its
effect and completion (R26, R282, R284). -/
def runCommand (i : Instr) (effect : State → State) (s : State) : Host.Outcome State Fault Refusal :=
  match firstError (checksOf i s) with
  | some c => .next (raiseError c s)
  | none => .next (complete (disturb i s (effect s)))

end Sys2Proof.Machine
end

