-- ==== Sys2Proof/Machine/Control.lean ====
section
/-! DEFINITION. The control command NOP (spec 45_control_and_host.md R250). -/

namespace Sys2Proof.Machine

/-- NOP: acceptance and completion only (R250). -/
def execNop (s : State) : Host.Outcome State Fault Refusal :=
  runCommand .nop (fun s => s) s

end Sys2Proof.Machine
end

