-- ==== Sys2Proof/Machine/Blake2s.lean ====
section
/-! DEFINITION. The BLAKE2s compression core: B2S_INIT, B2S_UPDATE, B2S_FINAL, B2S_COMPRESS, B2S_HASH
(spec 42_blake2s.md). -/

namespace Sys2Proof.Machine

/-- The initialization vector (R170). -/
def iv : ChainValue :=
  #v[0x6A09E667, 0xBB67AE85, 0x3C6EF372, 0xA54FF53A, 0x510E527F, 0x9B05688C, 0x1F83D9AB, 0x5BE0CD19]

/-- The message schedule, one row a round (R171). -/
def sigma : List (Vector (Fin 16) 16) :=
  [#v[0, 1, 2, 3, 4, 5, 6, 7, 8, 9, 10, 11, 12, 13, 14, 15],
   #v[14, 10, 4, 8, 9, 15, 13, 6, 1, 12, 0, 2, 11, 7, 5, 3],
   #v[11, 8, 12, 0, 5, 2, 15, 13, 10, 14, 3, 6, 7, 1, 9, 4],
   #v[7, 9, 3, 1, 13, 12, 11, 14, 2, 6, 5, 10, 4, 0, 15, 8],
   #v[9, 0, 5, 7, 2, 4, 10, 15, 14, 1, 11, 12, 6, 8, 3, 13],
   #v[2, 12, 6, 10, 0, 11, 8, 3, 4, 13, 7, 5, 15, 14, 1, 9],
   #v[12, 5, 1, 15, 14, 13, 4, 10, 0, 7, 6, 3, 9, 2, 8, 11],
   #v[13, 11, 7, 14, 12, 1, 3, 9, 5, 0, 15, 4, 8, 6, 2, 10],
   #v[6, 15, 14, 9, 11, 3, 0, 8, 12, 2, 13, 7, 1, 4, 10, 5],
   #v[10, 2, 8, 4, 7, 6, 1, 5, 15, 11, 9, 14, 3, 12, 13, 0]]

/-- The mixing function G (R172). -/
def mixG (v : Block) (a b c d : Fin 16) (x y : Word) : Block :=
  let v := v.set a (v[a] + v[b] + x)
  let v := v.set d (rotr (v[d] ^^^ v[a]) 16)
  let v := v.set c (v[c] + v[d])
  let v := v.set b (rotr (v[b] ^^^ v[c]) 12)
  let v := v.set a (v[a] + v[b] + y)
  let v := v.set d (rotr (v[d] ^^^ v[a]) 8)
  let v := v.set c (v[c] + v[d])
  v.set b (rotr (v[b] ^^^ v[c]) 7)

/-- One round: eight applications of G with the message words in the order of a row of the schedule (R173). -/
def compressRound (m : Block) (v : Block) (row : Vector (Fin 16) 16) : Block :=
  let v := mixG v 0 4 8 12 m[row[0]] m[row[1]]
  let v := mixG v 1 5 9 13 m[row[2]] m[row[3]]
  let v := mixG v 2 6 10 14 m[row[4]] m[row[5]]
  let v := mixG v 3 7 11 15 m[row[6]] m[row[7]]
  let v := mixG v 0 5 10 15 m[row[8]] m[row[9]]
  let v := mixG v 1 6 11 12 m[row[10]] m[row[11]]
  let v := mixG v 2 7 8 13 m[row[12]] m[row[13]]
  mixG v 3 4 9 14 m[row[14]] m[row[15]]

/-- The working vector a compression starts from (R173). -/
def workingVector (h : ChainValue) (t : BitVec 64) (f0 f1 : Word) : Block :=
  #v[h[0], h[1], h[2], h[3], h[4], h[5], h[6], h[7], iv[0], iv[1], iv[2], iv[3],
    t.extractLsb' 0 32 ^^^ iv[4], t.extractLsb' 32 32 ^^^ iv[5], f0 ^^^ iv[6], f1 ^^^ iv[7]]

/-- `Compress(h, block, t, f0, f1)`: ten rounds, one for each row of the schedule (R173). -/
def compress (h : ChainValue) (block : List Byte) (t : BitVec 64) (f0 f1 : Word) : ChainValue :=
  let v := sigma.foldl (compressRound (blockOfBytes block)) (workingVector h t f0 f1)
  Vector.ofFn fun k => h[k] ^^^ v[k.val]'(by omega) ^^^ v[k.val + 8]'(by omega)

/-- `ParamInit(outlen, keylen)`: the initial chain value (R174). -/
def paramInit (outlen keylen : BitVec 6) : ChainValue :=
  iv.set 0 (iv[0] ^^^ (0x01#8 ++ 0x01#8 ++ keylen.setWidth 8 ++ outlen.setWidth 8))

/-- `BUF[0..63] = BUF[64..127]; BUF[64..127] = 0` (R176). -/
def shiftBuf (buf : Vector Byte 128) : Vector Byte 128 :=
  Vector.ofFn fun k => if h : k.val < 64 then buf[k.val + 64] else 0

/-- `BUF[n..127] = 0` (R177). -/
def zeroBufFrom (n : Nat) (buf : Vector Byte 128) : Vector Byte 128 :=
  Vector.ofFn fun k => if k.val < n then buf[k] else 0

/-- The compression of `BUF[0..63]` after the counter has advanced by 64, and the shift of the rest (R176, R177). -/
def compressBuf (c : Ctx) : Ctx :=
  let t := c.t + 64
  { c with
    t := t
    h := compress c.h (c.buf.toList.take 64) t c.f0 c.f1
    buf := shiftBuf c.buf
    buflen := c.buflen - 64 }

/-- One byte appended by `CtxUpdate` (R176). -/
def ctxByte (c : Ctx) (b : Byte) : Ctx :=
  let c := { c with buf := c.buf.setIfInBounds c.buflen b, buflen := c.buflen + 1 }
  if 64 < c.buflen then compressBuf c else c

/-- `CtxUpdate(ctx, data)` (R176). -/
def ctxUpdate (c : Ctx) (data : List Byte) : Ctx := data.foldl ctxByte c

/-- A fresh context before any key byte (R175). -/
def ctxFresh (outlen keylen : BitVec 6) : Ctx where
  h := paramInit outlen keylen
  t := 0
  f0 := 0
  f1 := 0
  buf := Vector.replicate 128 0
  buflen := 0
  outlen := outlen
  keylen := keylen
  valid := true

/-- `CtxInit(ctx, outlen, keylen, key)`: no field of the old context is kept (R175). -/
def ctxInit (outlen keylen : BitVec 6) (key : List Byte) : Ctx :=
  if keylen = 0 then ctxFresh outlen keylen
  else
    ctxUpdate (ctxFresh outlen keylen)
      (key.take keylen.toNat ++ List.replicate (64 - keylen.toNat) 0)

/-- The context `CtxFinal` leaves (R177). Its first branch cannot run after R176 (N19); the rule keeps it. -/
def ctxFinal (c : Ctx) : Ctx :=
  let c := if 64 < c.buflen then compressBuf c else c
  let t := c.t + BitVec.ofNat 64 c.buflen
  let buf := zeroBufFrom c.buflen c.buf
  { c with
    t := t
    f0 := 0xFFFFFFFF
    buf := buf
    h := compress c.h (buf.toList.take 64) t 0xFFFFFFFF c.f1
    valid := false }

/-- The digest of a finished context: the chain value as little-endian bytes, its first OUTLEN (R177, R178). -/
def digest (c : Ctx) : List Byte := (leBytes c.h.toList).take c.outlen.toNat

/-- `KeyedHash(key, keylen, input, inlen, outlen)` on a fresh context (R180). -/
def keyedHash (outlen keylen : BitVec 6) (key input : List Byte) : List Byte :=
  digest (ctxFinal (ctxUpdate (ctxInit outlen keylen key) input))

/-- What B2S_INIT does once its checks have passed (R183). -/
def b2sInitEffect (keylen outlen : BitVec 6) (s : State) : State :=
  { s with ctx := ctxInit outlen keylen (s.mem.readBytes s.arg1.toNat keylen.toNat) }

/-- What B2S_UPDATE does once its checks have passed (R184). -/
def b2sUpdateEffect (s : State) : State :=
  { s with ctx := ctxUpdate s.ctx (s.mem.readBytes s.arg1.toNat s.arg3.toNat) }

/-- What B2S_FINAL does once its checks have passed (R185). -/
def b2sFinalEffect (s : State) : State :=
  { s with
    ctx := ctxFinal s.ctx
    mem := s.mem.writeBytes s.arg0.toNat (digest (ctxFinal s.ctx)) }

/-- What B2S_COMPRESS does once its checks have passed (R186). -/
def b2sCompressEffect (s : State) : State :=
  { s with
    ctx := { s.ctx with
      h := compress s.ctx.h (s.mem.readBytes s.arg1.toNat 64) s.ctx.t s.ctx.f0 s.ctx.f1 } }

/-- What B2S_HASH does once its checks have passed: every input byte is read before the digest is written, and the
architectural context is unchanged (R187). -/
def b2sHashEffect (keylen outlen : BitVec 6) (s : State) : State :=
  let key := s.mem.readBytes s.arg1.toNat keylen.toNat
  let msg := s.mem.readBytes s.arg2.toNat s.arg3.toNat
  { s with mem := s.mem.writeBytes s.arg0.toNat (keyedHash outlen keylen key msg) }

/-- B2S_INIT (R183). -/
def execB2sInit (keylen outlen : BitVec 6) (s : State) : Host.Outcome State Fault Refusal :=
  runCommand (.b2sInit keylen outlen) (b2sInitEffect keylen outlen) s

/-- B2S_UPDATE (R184). -/
def execB2sUpdate (s : State) : Host.Outcome State Fault Refusal := runCommand .b2sUpdate b2sUpdateEffect s

/-- B2S_FINAL (R185). -/
def execB2sFinal (s : State) : Host.Outcome State Fault Refusal := runCommand .b2sFinal b2sFinalEffect s

/-- B2S_COMPRESS (R186). -/
def execB2sCompress (s : State) : Host.Outcome State Fault Refusal :=
  runCommand .b2sCompress b2sCompressEffect s

/-- B2S_HASH (R187). -/
def execB2sHash (keylen outlen : BitVec 6) (s : State) : Host.Outcome State Fault Refusal :=
  runCommand (.b2sHash keylen outlen) (b2sHashEffect keylen outlen) s

end Sys2Proof.Machine
end

