-- ==== Sys2Proof/Machine/FastKdf.lean ====
section
/-! DEFINITION. The FastKDF key derivation unit: FASTKDF (spec 43_fastkdf.md). -/

namespace Sys2Proof.Machine

/-- `PRF(key, msg)` for a 32-byte key and a 64-byte message (R210). -/
def prf (key msg : List Byte) : List Byte :=
  let h := paramInit 32 32
  let h := compress h (key ++ List.replicate 32 0) 64 0 0
  let h := compress h msg 128 0xFFFFFFFF 0
  leBytes h.toList

/-- `X[at .. at+n-1]` of a buffer. -/
def window (x : List Byte) (at_ n : Nat) : List Byte := (x.drop at_).take n

/-- 256 bytes that repeat a string of `n` bytes (R211). -/
def repeatTo256 (x : List Byte) (n : Nat) : List Byte :=
  (List.range 256).map fun i => x.getD (i % n) 0

/-- The 320-byte buffer A: the repeated password and its own first 64 bytes (R211). -/
def kdfBufferA (password : List Byte) : List Byte :=
  let ring := repeatTo256 password 80
  ring ++ ring.take 64

/-- The 288-byte buffer B: the repeated salt and its own first 32 bytes (R211). -/
def kdfBufferB (salt : List Byte) (slen : Nat) : List Byte :=
  let ring := repeatTo256 salt slen
  ring ++ ring.take 32

/-- The hidden state of the loop: bufptr and B (R37, R212). -/
structure KdfLoop where
  bufptr : Nat
  b : List Byte
deriving DecidableEq, Repr

/-- Step 2 of the loop: the sum of the output's bytes, modulo 256 (R212). -/
def byteSum (out : List Byte) : Nat := (out.map BitVec.toNat).sum % 256

/-- Step 3 of the loop: the output XORed into B at the new offset, then the head mirrored to the tail or the tail to
the head (R212). -/
def kdfMix (p : Nat) (out b : List Byte) : List Byte :=
  let b := forLoop 32 (fun k b => b.set (p + k) (b.getD (p + k) 0 ^^^ out.getD k 0)) b
  let b := forLoop (32 - p) (fun j b => b.set (256 + (p + j)) (b.getD (p + j) 0)) b
  forLoop (p - 224) (fun k b => b.set k (b.getD (256 + k) 0)) b

/-- One iteration (R212). -/
def kdfIteration (a : List Byte) (l : KdfLoop) : KdfLoop :=
  let out := prf (window l.b l.bufptr 32) (window a l.bufptr 64)
  let p := byteSum out
  { bufptr := p, b := kdfMix p out l.b }

/-- The loop after `n` iterations from bufptr = 0 (R212). -/
def kdfLoop (a b : List Byte) (n : Nat) : KdfLoop :=
  forLoop n (fun _ l => kdfIteration a l) { bufptr := 0, b := b }

/-- The output: A XORed into the ring at bufptr, and `olen` bytes taken from there (R214). -/
def kdfOutput (a : List Byte) (l : KdfLoop) (olen : Nat) : List Byte :=
  let slot := fun k => (l.bufptr + k) % 256
  let b := forLoop olen (fun k b => b.set (slot k) (b.getD (slot k) 0 ^^^ a.getD k 0)) l.b
  (List.range olen).map fun k => b.getD (slot k) 0

/-- `FastKDF(P, S, SLEN, OLEN)`: 32 iterations, then the output (R211, R212, R214). -/
def fastKdf (password salt : List Byte) (slen olen : Nat) : List Byte :=
  let a := kdfBufferA password
  kdfOutput a (kdfLoop a (kdfBufferB salt slen) 32) olen

/-- What FASTKDF does once its checks have passed: both inputs are read whole before the output is written (R215). -/
def fastkdfEffect (olenm1 slenm1 : BitVec 8) (s : State) : State :=
  let password := s.mem.readBytes s.arg1.toNat 80
  let salt := s.mem.readBytes s.arg2.toNat (slenOf slenm1)
  { s with
    mem := s.mem.writeBytes s.arg0.toNat (fastKdf password salt (slenOf slenm1) (olenOf olenm1)) }

/-- FASTKDF (R215). -/
def execFastkdf (olenm1 slenm1 : BitVec 8) (s : State) : Host.Outcome State Fault Refusal :=
  runCommand (.fastkdf olenm1 slenm1) (fastkdfEffect olenm1 slenm1) s

end Sys2Proof.Machine
end

