-- ==== Sys2Proof/Machine/Permutation.lean ====
section
/-! DEFINITION. The Salsa20 and ChaCha20 permutation engines: SALSA, CHACHA (spec 41_stream_cipher_cores.md). -/

namespace Sys2Proof.Machine

/-- The Salsa20 quarter-round (R141). -/
def salsaQuarter (x : Block) (a b c d : Fin 16) : Block :=
  let x := x.set b (x[b] ^^^ rotl (x[a] + x[d]) 7)
  let x := x.set c (x[c] ^^^ rotl (x[b] + x[a]) 9)
  let x := x.set d (x[d] ^^^ rotl (x[c] + x[b]) 13)
  x.set a (x[a] ^^^ rotl (x[d] + x[c]) 18)

/-- The Salsa20 double round: the column round, then the row round (R142). -/
def salsaDouble (x : Block) : Block :=
  let x := salsaQuarter x 0 4 8 12
  let x := salsaQuarter x 5 9 13 1
  let x := salsaQuarter x 10 14 2 6
  let x := salsaQuarter x 15 3 7 11
  let x := salsaQuarter x 0 1 2 3
  let x := salsaQuarter x 5 6 7 4
  let x := salsaQuarter x 10 11 8 9
  salsaQuarter x 15 12 13 14

/-- The ChaCha20 quarter-round (R143). -/
def chachaQuarter (x : Block) (a b c d : Fin 16) : Block :=
  let x := x.set a (x[a] + x[b])
  let x := x.set d (rotl (x[d] ^^^ x[a]) 16)
  let x := x.set c (x[c] + x[d])
  let x := x.set b (rotl (x[b] ^^^ x[c]) 12)
  let x := x.set a (x[a] + x[b])
  let x := x.set d (rotl (x[d] ^^^ x[a]) 8)
  let x := x.set c (x[c] + x[d])
  x.set b (rotl (x[b] ^^^ x[c]) 7)

/-- The ChaCha20 double round: the column round, then the diagonal round (R144). -/
def chachaDouble (x : Block) : Block :=
  let x := chachaQuarter x 0 4 8 12
  let x := chachaQuarter x 1 5 9 13
  let x := chachaQuarter x 2 6 10 14
  let x := chachaQuarter x 3 7 11 15
  let x := chachaQuarter x 0 5 10 15
  let x := chachaQuarter x 1 6 11 12
  let x := chachaQuarter x 2 7 8 13
  chachaQuarter x 3 4 9 14

/-- One double round of a cipher. -/
def doubleRound : Cipher → Block → Block
  | .salsa, x => salsaDouble x
  | .chacha, x => chachaDouble x

/-- Word-wise addition modulo 2^32. -/
def addBlocks (x y : Block) : Block := Vector.ofFn fun k => x[k] + y[k]

/-- `Core(c, rounds, x_in)`: `rounds / 2` double rounds, then the feed-forward of the original input (R145, R149). -/
def cipherCore (c : Cipher) (rounds : Nat) (x : Block) : Block :=
  addBlocks (forLoop (rounds / 2) (fun _ x => doubleRound c x) x) x

/-- The in-place core on the 64 bytes at ARG0, read whole before any is written (R146, R147). -/
def permuteBlock (c : Cipher) (rounds : BitVec 8) (s : State) : State :=
  let x := blockOfBytes (s.mem.readBytes s.arg0.toNat 64)
  { s with mem := s.mem.writeBytes s.arg0.toNat (bytesOfBlock (cipherCore c rounds.toNat x)) }

/-- SALSA (R146). -/
def execSalsa (rounds : BitVec 8) (s : State) : Host.Outcome State Fault Refusal :=
  runCommand (.salsa rounds) (permuteBlock .salsa rounds) s

/-- CHACHA (R147). -/
def execChacha (rounds : BitVec 8) (s : State) : Host.Outcome State Fault Refusal :=
  runCommand (.chacha rounds) (permuteBlock .chacha rounds) s

end Sys2Proof.Machine
end

