-- ==== Sys2Proof/Machine/Mixer.lean ====
section
/-! DEFINITION. The block mixer and the SMix memory-hard mixer: BLKMIX, SMIX (spec 44_blockmix_smix.md). -/

namespace Sys2Proof.Machine

/-- The all-zero block, for indices no chain has. -/
def zeroBlock : Block := Vector.replicate 16 0

/-- Word-wise XOR of two blocks. -/
def xorBlocks (x y : Block) : Block := Vector.ofFn fun k => x[k] ^^^ y[k]

/-- The blocks Y: each the core of the block before XORed with the next of X, from `prev` (R230). -/
def mixBlocks (c : Cipher) (rounds : Nat) : Block → Chain → Chain
  | _, [] => []
  | prev, x :: xs =>
    let y := cipherCore c rounds (xorBlocks prev x)
    y :: mixBlocks c rounds y xs

/-- Even results to the first half, odd results to the second half (R230). -/
def deinterleave (r : Nat) (y : Chain) : Chain :=
  (List.range r).map (fun i => y.getD (2 * i) zeroBlock)
    ++ (List.range r).map (fun i => y.getD (2 * i + 1) zeroBlock)

/-- `BlockMix(c, rounds, r, X)` (R230). -/
def blockMix (c : Cipher) (rounds r : Nat) (x : Chain) : Chain :=
  deinterleave r (mixBlocks c rounds (x.getD (2 * r - 1) zeroBlock) x)

/-- The chain of `2r` blocks at an address (R232). -/
def readChain (m : Memory) (addr r : Nat) : Chain :=
  (List.range (2 * r)).map fun i => blockOfBytes (m.readBytes (addr + 64 * i) 64)

/-- A chain as its bytes (R232). -/
def bytesOfChain (x : Chain) : List Byte := x.flatMap bytesOfBlock

/-- `X ^ V[j]`, all `32r` words (R233). -/
def xorChains (x y : Chain) : Chain := List.zipWith xorBlocks x y

/-- The index of a mix step: word 0 of the last block AND `N - 1` (R233, R234). -/
def smixIndex (r n : Nat) (x : Chain) : Nat :=
  (x.getD (2 * r - 1) zeroBlock)[0].toNat &&& (n - 1)

/-- SMix's X and the memory that holds V (R233). -/
structure SmixLoop where
  mem : Memory
  x : Chain
deriving DecidableEq, Repr

/-- Step `i` of the fill phase: X into slot `i` of V, then X mixed (R233). -/
def smixFillStep (c : Cipher) (rounds r v : Nat) (i : Nat) (l : SmixLoop) : SmixLoop :=
  { mem := l.mem.writeBytes (v + i * (128 * r)) (bytesOfChain l.x)
    x := blockMix c rounds r l.x }

/-- A step of the mix phase: slot `j` of V XORed into X, then X mixed; V is not written (R233, R234). -/
def smixMixStep (c : Cipher) (rounds r n v : Nat) (l : SmixLoop) : SmixLoop :=
  let j := smixIndex r n l.x
  { l with x := blockMix c rounds r (xorChains l.x (readChain l.mem (v + j * (128 * r)) r)) }

/-- The fill phase after `k` steps (R233). -/
def smixFill (c : Cipher) (rounds r v k : Nat) (l : SmixLoop) : SmixLoop :=
  forLoop k (smixFillStep c rounds r v) l

/-- `SMix(c, rounds, r, N, X, V)` with V at address `v` (R233). -/
def smixRun (c : Cipher) (rounds r n v : Nat) (l : SmixLoop) : SmixLoop :=
  forLoop n (fun _ l => smixMixStep c rounds r n v l) (smixFill c rounds r v n l)

/-- What BLKMIX does once its checks have passed: the whole chain is read before any byte is written (R232). -/
def blkmixEffect (rexp : BitVec 3) (c : Cipher) (rounds : BitVec 8) (s : State) : State :=
  let x := readChain s.mem s.arg0.toNat (chainR rexp)
  { s with
    mem := s.mem.writeBytes s.arg0.toNat (bytesOfChain (blockMix c rounds.toNat (chainR rexp) x)) }

/-- What SMIX does once its checks have passed: V is read and written in buffer memory, X is written once at the end
(R236). -/
def smixEffect (nexp : BitVec 5) (rexp : BitVec 3) (c : Cipher) (rounds : BitVec 8) (s : State) : State :=
  let x := readChain s.mem s.arg0.toNat (chainR rexp)
  let l := smixRun c rounds.toNat (chainR rexp) (smixN nexp) s.arg1.toNat { mem := s.mem, x := x }
  { s with mem := l.mem.writeBytes s.arg0.toNat (bytesOfChain l.x) }

/-- BLKMIX (R232). -/
def execBlkmix (rexp : BitVec 3) (c : Cipher) (rounds : BitVec 8) (s : State) :
    Host.Outcome State Fault Refusal :=
  runCommand (.blkmix rexp c rounds) (blkmixEffect rexp c rounds) s

/-- SMIX (R236). -/
def execSmix (nexp : BitVec 5) (rexp : BitVec 3) (c : Cipher) (rounds : BitVec 8) (s : State) :
    Host.Outcome State Fault Refusal :=
  runCommand (.smix nexp rexp c rounds) (smixEffect nexp rexp c rounds) s

end Sys2Proof.Machine
end

