-- ==== Sys2Proof/Machine/Utility.lean ====
section
/-! DEFINITION. The block utility datapath: COPY, ERASE, XOR, SWAP (spec 40_block_utility.md). Each effect is the
forward byte loop of its rule, every read seeing every earlier write of the same command (R72, R120). -/

namespace Sys2Proof.Machine

/-- The loop of R121: byte `i` of the source to byte `i` of the destination. -/
def copyLoop (dst src len : Nat) (m : Memory) : Memory :=
  forLoop len (fun i m => m.write (dst + i) (m.read (src + i))) m

/-- The loop of R122. -/
def eraseLoop (dst len : Nat) (m : Memory) : Memory :=
  forLoop len (fun i m => m.write (dst + i) 0) m

/-- The loop of R123. -/
def xorLoop (dst src len : Nat) (m : Memory) : Memory :=
  forLoop len (fun i m => m.write (dst + i) (m.read (dst + i) ^^^ m.read (src + i))) m

/-- The loop of R124. -/
def swapLoop (a b len : Nat) (m : Memory) : Memory :=
  forLoop len (fun i m => (m.write (a + i) (m.read (b + i))).write (b + i) (m.read (a + i))) m

/-- What COPY does once its checks have passed (R121). -/
def copyEffect (s : State) : State :=
  { s with mem := copyLoop s.arg0.toNat s.arg1.toNat s.arg3.toNat s.mem }

/-- What ERASE does once its checks have passed (R122). -/
def eraseEffect (s : State) : State :=
  { s with mem := eraseLoop s.arg0.toNat s.arg3.toNat s.mem }

/-- What XOR does once its checks have passed (R123). -/
def xorEffect (s : State) : State :=
  { s with mem := xorLoop s.arg0.toNat s.arg1.toNat s.arg3.toNat s.mem }

/-- What SWAP does once its checks have passed (R124). -/
def swapEffect (s : State) : State :=
  { s with mem := swapLoop s.arg0.toNat s.arg1.toNat s.arg3.toNat s.mem }

/-- COPY (R121). -/
def execCopy (s : State) : Host.Outcome State Fault Refusal := runCommand .copy copyEffect s

/-- ERASE (R122). -/
def execErase (s : State) : Host.Outcome State Fault Refusal := runCommand .erase eraseEffect s

/-- XOR (R123). -/
def execXor (s : State) : Host.Outcome State Fault Refusal := runCommand .xor xorEffect s

/-- SWAP (R124). -/
def execSwap (s : State) : Host.Outcome State Fault Refusal := runCommand .swap swapEffect s

end Sys2Proof.Machine
end

