-- ==== Sys2Proof/Machine/Dispatch.lean ====
section
/-! DEFINITION. One arm per command (spec 30_encoding.md R99). -/

namespace Sys2Proof.Machine

def exec (i : Instr) (s : State) : Host.Outcome State Fault Refusal :=
  match i with
  | .nop => Sys2Proof.Machine.execNop s
  | .copy => Sys2Proof.Machine.execCopy s
  | .erase => Sys2Proof.Machine.execErase s
  | .xor => Sys2Proof.Machine.execXor s
  | .swap => Sys2Proof.Machine.execSwap s
  | .salsa rounds => Sys2Proof.Machine.execSalsa rounds s
  | .chacha rounds => Sys2Proof.Machine.execChacha rounds s
  | .b2sInit keylen outlen => Sys2Proof.Machine.execB2sInit keylen outlen s
  | .b2sUpdate => Sys2Proof.Machine.execB2sUpdate s
  | .b2sFinal => Sys2Proof.Machine.execB2sFinal s
  | .b2sCompress => Sys2Proof.Machine.execB2sCompress s
  | .b2sHash keylen outlen => Sys2Proof.Machine.execB2sHash keylen outlen s
  | .fastkdf olenm1 slenm1 => Sys2Proof.Machine.execFastkdf olenm1 slenm1 s
  | .blkmix rexp cipher rounds => Sys2Proof.Machine.execBlkmix rexp cipher rounds s
  | .smix nexp rexp cipher rounds => Sys2Proof.Machine.execSmix nexp rexp cipher rounds s

end Sys2Proof.Machine
end

