-- ==== Sys2Proof/Machine/Flags.lean ====
section
/-! DEFINITION. The register views of STATUS, ERRCODE, B2SCFG and T, and the writes the host can make to
STATUS and T (spec 10_state.md R24, R25, R32, R35). -/

namespace Sys2Proof.Machine

/-- The code of an error, as ERRCODE[7:0] holds it (R281). -/
def ErrorCode.code : ErrorCode → BitVec 8
  | .none => 0
  | .illegalOpcode => 1
  | .reservedField => 2
  | .rounds => 3
  | .param => 4
  | .state => 5
  | .length => 6
  | .align => 7
  | .range => 8
  | .alloc => 9
  | .overlap => 10

/-- STATUS as the host reads it: BUSY in bit 0 up to LOST in bit 4, the other bits 0 (R24). -/
def Status.word (f : Status) : Word :=
  0#27 ++ BitVec.ofBool f.lost ++ BitVec.ofBool f.anyerr ++ BitVec.ofBool f.err ++ BitVec.ofBool f.done
    ++ BitVec.ofBool f.busy

/-- A host write to STATUS: a 1 in bit 3 clears ANYERR, a 1 in bit 4 clears LOST, and nothing else changes (R24). -/
def Status.writeOneToClear (v : Word) (f : Status) : Status :=
  { f with
    anyerr := f.anyerr && !v.getLsbD 3
    lost := f.lost && !v.getLsbD 4 }

/-- ERRCODE as the host reads it: bits 31:8 read 0 (R25). -/
def errcodeWord (c : ErrorCode) : Word := 0#24 ++ c.code

/-- B2SCFG as the host reads it (R35). -/
def b2scfgWord (c : Ctx) : Word :=
  0#7 ++ BitVec.ofBool c.valid ++ BitVec.ofNat 8 c.buflen ++ 0#2 ++ c.keylen ++ 0#2 ++ c.outlen

/-- T0, bits 31:0 of T (R32). -/
def t0Word (t : BitVec 64) : Word := t.extractLsb' 0 32

/-- T1, bits 63:32 of T (R32). -/
def t1Word (t : BitVec 64) : Word := t.extractLsb' 32 32

/-- T after a host write to T0 (R32). -/
def setT0 (v : Word) (t : BitVec 64) : BitVec 64 := t1Word t ++ v

/-- T after a host write to T1 (R32). -/
def setT1 (v : Word) (t : BitVec 64) : BitVec 64 := v ++ t0Word t

end Sys2Proof.Machine
end

