-- ==== Sys2Proof/Machine/HostPort.lean ====
section
/-! DEFINITION. The host's side of the block: the register port, the host's own accesses to buffer memory, and the
`rst` input (spec 10_state.md R20 to R35, 70_reset_and_hazards.md R310 to R320). -/

namespace Sys2Proof.Machine

/-- What a word offset of the register block names (R21). -/
inductive Reg where
  | cmd
  | status
  | errcode
  | arg0
  | arg1
  | arg2
  | arg3
  | h (k : Fin 8)
  | t0
  | t1
  | f0
  | f1
  | b2scfg
  | reserved
deriving DecidableEq, Repr

/-- The register map (R21): byte offset `4 * offset`. -/
def regAt (offset : BitVec 6) : Reg :=
  match offset.toNat with
  | 0 => .cmd
  | 1 => .status
  | 2 => .errcode
  | 4 => .arg0
  | 5 => .arg1
  | 6 => .arg2
  | 7 => .arg3
  | 8 => .h 0
  | 9 => .h 1
  | 10 => .h 2
  | 11 => .h 3
  | 12 => .h 4
  | 13 => .h 5
  | 14 => .h 6
  | 15 => .h 7
  | 16 => .t0
  | 17 => .t1
  | 18 => .f0
  | 19 => .f1
  | 20 => .b2scfg
  | _ => .reserved

/-- The word offset that an aligned address of the host's register space reaches, in a block based at `REG_BASE`
(R21, R294). -/
def regOffset (cfg : Params) (hostAddress : Nat) : Option (BitVec 6) :=
  if cfg.regBase ≤ hostAddress ∧ hostAddress < cfg.regBase + 256 ∧ (hostAddress - cfg.regBase) % 4 = 0 then
    some (BitVec.ofNat 6 ((hostAddress - cfg.regBase) / 4))
  else none

/-- The value a register holds, as the host reads it while idle (R21 to R35). -/
def regValue (r : Reg) (s : State) : Word :=
  match r with
  | .cmd => s.cmd
  | .status => s.status.word
  | .errcode => errcodeWord s.errcode
  | .arg0 => s.arg0
  | .arg1 => s.arg1
  | .arg2 => s.arg2
  | .arg3 => s.arg3
  | .h k => s.ctx.h[k]
  | .t0 => t0Word s.ctx.t
  | .t1 => t1Word s.ctx.t
  | .f0 => s.ctx.f0
  | .f1 => s.ctx.f1
  | .b2scfg => b2scfgWord s.ctx
  | .reserved => 0

/-- The `busy` output (R20). -/
def busyOutput (s : State) : Bool := s.status.busy

/-- The `done` output (R20). -/
def doneOutput (s : State) : Bool := s.status.done

/-- A register of the BLAKE2s context, whose value is unspecified while BUSY (R27, I3). -/
def Reg.ofContext : Reg → Bool
  | .h _ => true
  | .t0 => true
  | .t1 => true
  | .f0 => true
  | .f1 => true
  | .b2scfg => true
  | .cmd => false
  | .status => false
  | .errcode => false
  | .arg0 => false
  | .arg1 => false
  | .arg2 => false
  | .arg3 => false
  | .reserved => false

/-- A register read: only the port's read data changes, and the free-value counter where the value is unspecified
(R22, R27). While `rst` is 1 a read returns 0 (R310). -/
def readReg (r : Reg) (s : State) : State :=
  if s.rst then { s with regRdata := 0 }
  else if s.status.busy && r.ofContext then
    { s with regRdata := Config.freeWord s.freeCtr 0, freeCtr := s.freeCtr + 1 }
  else { s with regRdata := regValue r s }

/-- A write ignored because the core is BUSY sets LOST (R27). -/
def loseWrite (s : State) : State := { s with status := { s.status with lost := true } }

/-- A write to a register that keeps its value while BUSY (R27). -/
def writeIdle (f : State → State) (s : State) : State := if s.status.busy then loseWrite s else f s

/-- A register write (R21 to R35). While `rst` is 1 it is ignored (R310). -/
def writeReg (r : Reg) (v : Word) (s : State) : State :=
  if s.rst then s
  else
    match r with
    | .cmd => writeIdle (accept v) s
    | .status => { s with status := s.status.writeOneToClear v }
    | .errcode => s
    | .arg0 => writeIdle (fun s => { s with arg0 := v }) s
    | .arg1 => writeIdle (fun s => { s with arg1 := v }) s
    | .arg2 => writeIdle (fun s => { s with arg2 := v }) s
    | .arg3 => writeIdle (fun s => { s with arg3 := v }) s
    | .h k => writeIdle (fun s => { s with ctx := { s.ctx with h := s.ctx.h.set k v } }) s
    | .t0 => writeIdle (fun s => { s with ctx := { s.ctx with t := setT0 v s.ctx.t } }) s
    | .t1 => writeIdle (fun s => { s with ctx := { s.ctx with t := setT1 v s.ctx.t } }) s
    | .f0 => writeIdle (fun s => { s with ctx := { s.ctx with f0 := v } }) s
    | .f1 => writeIdle (fun s => { s with ctx := { s.ctx with f1 := v } }) s
    | .b2scfg => s
    | .reserved => s

/-- A host write of one byte of buffer memory. While BUSY the byte is lost (R251; DEDUCED, log 16) and the running
command's result is undefined (R320). -/
def hostMemWrite (address : Word) (v : Byte) (s : State) : State :=
  { s with
    mem := if s.status.busy then s.mem else s.mem.write address.toNat v
    disturbed := s.disturbed || s.status.busy }

/-- A host read of one byte of buffer memory. While BUSY a byte of the running command's write set reads as an
arbitrary value, any other byte as stored (R320, I2). -/
def hostMemRead (address : Word) (s : State) : State :=
  if inRegions (runningWriteSet s) address.toNat then
    { s with memRdata := Config.freeByte s.freeCtr address.toNat, freeCtr := s.freeCtr + 1 }
  else { s with memRdata := s.mem.read address.toNat }

/-- Reset: every register takes its reset value, memory is unchanged but for the write set of a command it abandons,
whose bytes become arbitrary, and the host's later moves stand (R310 to R312). DESIGN CHOICE: the registers take their
values while `rst` is still 1 (log 7), and both read ports keep what they returned last, for which the spec gives no
value at reset (log 12). -/
def assertReset (s : State) : State :=
  { State.resetWith s.cfg with
    mem := scramble s.freeCtr (runningWriteSet s) s.mem
    rst := true
    regRdata := s.regRdata
    memRdata := s.memRdata
    host := s.host
    freeCtr := s.freeCtr + 1 }

/-- The level of `rst` (R310). -/
def driveReset (level : Bool) (s : State) : State :=
  if level then assertReset s else { s with rst := false }

/-- Step 6 of the host's protocol: STATUS and ERRCODE are read, and the host gives the rest of its moves up when the
ERR it read is 1 (R251, R266). -/
def readOutcome (s : State) : State :=
  let read := readReg .status s
  let t := readReg .errcode read
  if read.regRdata.getLsbD 2 then { t with host := [] } else t

/-- One move of the host, already taken off its list. -/
def hostMove (a : HostAction) (s : State) : Host.Outcome State Fault Refusal :=
  match a with
  | .wr offset v => .next (writeReg (regAt offset) v s)
  | .rd offset => .next (readReg (regAt offset) s)
  | .memWr address v =>
    if address.toNat < s.cfg.memSize then .next (hostMemWrite address v s)
    else .fault (.hostAccessOutsideMemory address)
  | .memRd address =>
    if address.toNat < s.cfg.memSize then .next (hostMemRead address s)
    else .fault (.hostAccessOutsideMemory address)
  | .wait => .next (readReg .status s)
  | .abortOnErr => .next (readOutcome s)
  | .rst level => .next (driveReset level s)

/-- The host's next move: it has none, or it has one and takes it (R295, R320). A move made while BUSY uses up
latency. -/
def hostTurn (s : State) : Host.Outcome State Fault Refusal :=
  match s.host with
  | [] => .next s
  | a :: rest => hostMove a { s with host := rest, latency := s.latency - 1 }

/-- The host has no access to make before it sees BUSY = 0: it has no move left, or it waits (R103). -/
def hostYields : List HostAction → Bool
  | [] => true
  | .wait :: _ => true
  | _ :: _ => false

/-- The core moves next: a command is running, and either the host yields or the command's latency is over (R325). -/
def coreTurn (s : State) : Bool :=
  !s.rst && s.status.busy && (hostYields s.host || s.latency == 0)

/-- The error that a word selecting no command raises (R90). -/
def decodeErrorCode : DecodeError → ErrorCode
  | .illegalOpcode => .illegalOpcode
  | .reservedField => .reservedField

end Sys2Proof.Machine
end

