-- ==== Sys2Proof/Machine/Step.lean ====
section
/-! DEFINITION. One step of the machine: the core completes the running command when it is its turn (one command
is one step, spec 00_scope.md R12), else the host makes its next move. -/

namespace Sys2Proof.Machine

/-- One step. -/
def step (s : State) : Host.Outcome State Fault Refusal :=
  if coreTurn s then
    match decode s.cmd with
    | .ok i => exec i s
    | .error e => .next (raiseError (decodeErrorCode e) s)
  else hostTurn s

/-- `s` with a word just accepted in CMD and its latency over, so that the next step runs it: the block fetches
nothing, and a command comes to it as a host write to CMD (R23, R29; log 2). -/
def State.withFetchWord (s : State) (nbits w : Nat) : State :=
  { accept (BitVec.ofNat 32 (w % 2 ^ nbits)) { s with rst := false } with latency := 0 }

end Sys2Proof.Machine
end

