-- ==== Sys2Proof/Machine/HostProgram.lean ====
section
/-! DEFINITION. The host's programs: the assembler notation and its pseudo-instructions (spec 30_encoding.md R103,
R104), the profile word and the NeoScrypt sequence (45_control_and_host.md R256 to R267). They bind a host that
computes NeoScrypt, not the block (R4). -/

namespace Sys2Proof.Machine

/-- Word offsets of the registers the host writes (R21). -/
def offCmd : BitVec 6 := 0
def offArg0 : BitVec 6 := 4
def offArg1 : BitVec 6 := 5
def offArg2 : BitVec 6 := 6
def offArg3 : BitVec 6 := 7

/-- `cmd MNEMONIC ..`: one host write of the encoded word to CMD (R103). -/
def cmdOf (i : Instr) : HostAction := .wr offCmd (encode i)

/-- A power of two as its exponent; any other value has none (R103). -/
def exactLog2 (n : Nat) : Option Nat :=
  if 2 ^ n.log2 = n then some n.log2 else none

/-- A value that fits an unsigned field of `w` bits (R103). -/
def fitField (w n : Nat) : Option (BitVec w) :=
  if n < 2 ^ w then some (BitVec.ofNat w n) else none

/-- `r=` as REXP (R103). -/
def asmR (r : Nat) : Option (BitVec 3) := (exactLog2 r).bind (fitField 3)

/-- `n=` as NEXP (R103). -/
def asmN (n : Nat) : Option (BitVec 5) := (exactLog2 n).bind (fitField 5)

/-- `slen=` or `olen=` as the field that holds it less 1 (R103). -/
def asmLen (n : Nat) : Option (BitVec 8) := if n = 0 then none else fitField 8 (n - 1)

/-- `copy d, s, n` (R104). -/
def asmCopy (d s n : Word) : List HostAction :=
  [.wr offArg0 d, .wr offArg1 s, .wr offArg3 n, cmdOf .copy, .wait]

/-- `erase d, n` (R104). -/
def asmErase (d n : Word) : List HostAction := [.wr offArg0 d, .wr offArg3 n, cmdOf .erase, .wait]

/-- `xor d, s, n` (R104). -/
def asmXor (d s n : Word) : List HostAction :=
  [.wr offArg0 d, .wr offArg1 s, .wr offArg3 n, cmdOf .xor, .wait]

/-- `swap a, b, n` (R104). -/
def asmSwap (a b n : Word) : List HostAction :=
  [.wr offArg0 a, .wr offArg1 b, .wr offArg3 n, cmdOf .swap, .wait]

/-- `salsa b, k` (R104). -/
def asmSalsa (b : Word) (k : Nat) : Option (List HostAction) := do
  let rounds ← fitField 8 k
  return [.wr offArg0 b, cmdOf (.salsa rounds), .wait]

/-- `chacha b, k` (R104). -/
def asmChacha (b : Word) (k : Nat) : Option (List HostAction) := do
  let rounds ← fitField 8 k
  return [.wr offArg0 b, cmdOf (.chacha rounds), .wait]

/-- `b2s.init o, kl, key` (R104). -/
def asmB2sInit (o kl : Nat) (key : Word) : Option (List HostAction) := do
  let outlen ← fitField 6 o
  let keylen ← fitField 6 kl
  return [.wr offArg1 key, cmdOf (.b2sInit keylen outlen), .wait]

/-- `b2s.update s, n` (R104). -/
def asmB2sUpdate (s n : Word) : List HostAction :=
  [.wr offArg1 s, .wr offArg3 n, cmdOf .b2sUpdate, .wait]

/-- `b2s.final d` (R104). -/
def asmB2sFinal (d : Word) : List HostAction := [.wr offArg0 d, cmdOf .b2sFinal, .wait]

/-- `b2s.compress s` (R104). -/
def asmB2sCompress (s : Word) : List HostAction := [.wr offArg1 s, cmdOf .b2sCompress, .wait]

/-- `b2s.hash d, key, kl, in, n, o` (R104). -/
def asmB2sHash (d key : Word) (kl : Nat) (input n : Word) (o : Nat) : Option (List HostAction) := do
  let outlen ← fitField 6 o
  let keylen ← fitField 6 kl
  return [.wr offArg0 d, .wr offArg1 key, .wr offArg2 input, .wr offArg3 n,
    cmdOf (.b2sHash keylen outlen), .wait]

/-- `fastkdf d, p, s, sl, ol` (R104). -/
def asmFastkdf (d p s : Word) (sl ol : Nat) : Option (List HostAction) := do
  let slenm1 ← asmLen sl
  let olenm1 ← asmLen ol
  return [.wr offArg0 d, .wr offArg1 p, .wr offArg2 s, cmdOf (.fastkdf olenm1 slenm1), .wait]

/-- `fastkdf.pre d, p` (R104). -/
def asmFastkdfPre (d p : Word) : Option (List HostAction) := asmFastkdf d p p 80 256

/-- `fastkdf.post d, p, s` (R104). -/
def asmFastkdfPost (d p s : Word) : Option (List HostAction) := asmFastkdf d p s 256 32

/-- `blkmix x, c, k, r` (R104). -/
def asmBlkmix (x : Word) (c : Cipher) (k r : Nat) : Option (List HostAction) := do
  let rounds ← fitField 8 k
  let rexp ← asmR r
  return [.wr offArg0 x, cmdOf (.blkmix rexp c rounds), .wait]

/-- `smix x, v, c, k, r, n` (R104). -/
def asmSmix (x v : Word) (c : Cipher) (k r n : Nat) : Option (List HostAction) := do
  let rounds ← fitField 8 k
  let rexp ← asmR r
  let nexp ← asmN n
  return [.wr offArg0 x, .wr offArg1 v, cmdOf (.smix nexp rexp c rounds), .wait]

/-- The mixing a profile selects: Salsa alone, or Salsa and ChaCha, with their round counts (R257). -/
inductive Mixing where
  | single (salsaRounds : Nat)
  | dual (salsaRounds chachaRounds : Nat)
deriving DecidableEq, Repr

/-- A decoded profile word (R256). -/
structure Profile where
  n : Nat
  r : Nat
  mixing : Mixing
deriving DecidableEq, Repr

/-- The profile decode, none where the host refuses (R261). -/
def decodeProfile (cfg : Params) (p : Word) : Option Profile :=
  let overridden := p.getLsbD 31
  let nBits := (p.extractLsb' 8 5).toNat
  let rBits := (p.extractLsb' 5 3).toNat
  let base : Profile :=
    if p.getLsbD 0 then { n := 1024, r := 1, mixing := .single 8 }
    else { n := 128, r := 2, mixing := .dual 20 20 }
  let profile :=
    if overridden then { base with n := 2 ^ (nBits + cfg.nExpBias), r := 2 ^ rBits } else base
  if p.extractLsb' 13 18 ≠ 0 then none
  else if p.extractLsb' 1 4 ≠ 0 then none
  else if overridden ∧ nBits = 0 then none
  else if 2 < profile.r then none
  else some profile

/-- Where the host places the buffers of the sequence (R263). -/
structure Placement where
  pw : Word
  x : Word
  z : Word
  v : Word
  o : Word
deriving DecidableEq, Repr

/-- The regions R263 keeps apart: X, V and the password, and Z in dual mode. -/
def Placement.regions (at_ : Placement) (f : Profile) : List Region :=
  let len := 128 * f.r
  let shared := [region at_.x len, region at_.v (f.n * len), region at_.pw 80]
  match f.mixing with
  | .single _ => shared
  | .dual _ _ => region at_.z len :: shared

/-- X, Z and V overlap neither each other nor the password (R263), and the output does not overlap the password, which
the sequence leaves unchanged (R267). -/
def Placement.separate (at_ : Placement) (f : Profile) : Bool :=
  decide ((at_.regions f).Pairwise fun r q => regionsOverlap r q = false) &&
    !regionsOverlap (region at_.o 32) (region at_.pw 80)

/-- A command issued by the host's protocol (R251): wait for BUSY = 0, write its operands in buffer memory, write its
registers and CMD and wait (the moves of its pseudo-instruction, R104), then read the outcome. -/
def issue (operands : List (Word × Byte)) (moves : List HostAction) : List HostAction :=
  .wait :: operands.map (fun p => .memWr p.1 p.2) ++ moves ++ [.abortOnErr]

/-- The NeoScrypt sequence of a decoded profile, the password lying in memory: none for a placement that R263
forbids or in which the last step would change the password (R267). -/
def neoscryptSequence (f : Profile) (at_ : Placement) : Option (List HostAction) := do
  let len := 128 * f.r
  guard (at_.separate f)
  let first ← asmFastkdf at_.x at_.pw at_.pw 80 len
  let last ← asmFastkdf at_.o at_.pw at_.x len 32
  match f.mixing with
  | .single salsaRounds =>
    let mix ← asmSmix at_.x at_.v .salsa salsaRounds f.r f.n
    return issue [] first ++ issue [] mix ++ issue [] last
  | .dual salsaRounds chachaRounds =>
    let mixZ ← asmSmix at_.z at_.v .chacha chachaRounds f.r f.n
    let mixX ← asmSmix at_.x at_.v .salsa salsaRounds f.r f.n
    return issue [] first ++ issue [] (asmCopy at_.z at_.x (BitVec.ofNat 32 len)) ++ issue [] mixZ
      ++ issue [] mixX ++ issue [] (asmXor at_.x at_.z (BitVec.ofNat 32 len)) ++ issue [] last

/-- `neoscrypt(P, p)` as the host's moves: none when the profile is refused or the buffers are not apart
(R261, R263, R267). -/
def neoscrypt (cfg : Params) (p : Word) (at_ : Placement) : Option (List HostAction) :=
  (decodeProfile cfg p).bind fun f => neoscryptSequence f at_

end Sys2Proof.Machine
end

