-- ==== Sys2Proof/Safety.lean ====
section
/-! DEFINITION. What counts as a good state and as a host that keeps its duties, in the terms the statements use. -/

namespace Sys2Proof.Machine

/-- The flags and ERRCODE agree: a running command has neither DONE nor ERR (R23), ERR stands exactly when ERRCODE
holds a code (R25, R26), and ERR comes only with completion (R24). -/
abbrev State.flagsAgree (s : State) : Prop :=
  (s.status.busy = true → s.status.done = false ∧ s.status.err = false) ∧
  (s.status.err = true ↔ s.errcode ≠ .none) ∧
  (s.status.err = true → s.status.done = true)

/-- The context's lengths are the ones the rules allow: BUFLEN at most 64 (R34), OUTLEN and KEYLEN at most 32, and
OUTLEN at least 1 in an open context (R35). -/
abbrev Ctx.lengthsLegal (c : Ctx) : Prop :=
  c.buflen ≤ 64 ∧ c.outlen.toNat ≤ 32 ∧ c.keylen.toNat ≤ 32 ∧ (c.valid = true → 1 ≤ c.outlen.toNat)

/-- While `rst` is 1 no command runs (R310). -/
abbrev State.resetHolds (s : State) : Prop := s.rst = true → s.status.busy = false

/-- The invariant every step keeps. -/
abbrev State.inv (s : State) : Prop :=
  s.mem.wf ∧ s.mem.within s.cfg.memSize ∧ s.cfg.wf ∧ s.flagsAgree ∧ s.ctx.lengthsLegal ∧ s.resetHolds

/-- The host's next move keeps R320: while BUSY it makes no access to buffer memory and writes none of the registers
that a running command holds. -/
def keepsDuty (s : State) : Bool :=
  if s.status.busy then
    match s.host with
    | .memWr _ _ :: _ => false
    | .memRd _ :: _ => false
    | .wr offset _ :: _ => [Reg.status, .errcode, .b2scfg, .reserved].contains (regAt offset)
    | _ => true
  else true

/-- A region `(a, n)` is in range (R9). -/
abbrev State.fits (s : State) (a : Word) (n : Nat) : Prop := n = 0 ∨ a.toNat + n ≤ s.cfg.memSize

/-- A word operand is a multiple of 4 (R65). -/
abbrev wordAligned (a : Word) : Prop := a.toNat % 4 = 0

/-- A legal round count (R94). -/
abbrev evenRounds (rounds : BitVec 8) : Prop := rounds ≠ 0 ∧ rounds.toNat % 2 = 0

/-- Legal digest and key lengths (R95). -/
abbrev legalDigest (keylen outlen : BitVec 6) : Prop :=
  1 ≤ outlen.toNat ∧ outlen.toNat ≤ 32 ∧ keylen.toNat ≤ 32

/-- The buffer memory is in canonical form and the host left it alone while the command ran (R320). -/
abbrev State.quiet (s : State) : Prop := s.mem.wf ∧ s.disturbed = false

/-- Every byte outside the regions reads in `m` as in `s`. -/
abbrev State.sameOutside (s : State) (m : Memory) (rs : List Region) : Prop :=
  ∀ a, inRegions rs a = false → m.read a = s.mem.read a

end Sys2Proof.Machine
end

