-- ==== Sys2Proof/Certificates/Slice0/Obligations.lean ====
section
/-! DEFINITION. The statements about the model, each citing the rules of the spec it rests on. -/

open Sys2Proof Sys2Proof.Machine

/-! ### Command words -/

/-- Decoding the encoding of any command gives the command back, its fields at every value (R90 to R99). -/
def Obligations.DecodeOfEncodeIsTheCommand : Prop := ∀ i : Instr, decode (encode i) = .ok i

/-- A word that decodes is the encoding of what it decodes to: no bit of a legal word is ignored (R90, R92). -/
def Obligations.EncodeOfDecodeIsTheWord : Prop := ∀ (w : Word) (i : Instr), decode w = .ok i → encode i = w

/-- The OPC values R100 lists, and no others, raise ILLEGAL_OPCODE when the core runs the word: after a word with a
mapped OPC, from a state whose flags and ERRCODE agree, ERRCODE is not ILLEGAL_OPCODE. -/
def Obligations.UnmappedOpcodesRaiseIllegalOpcode : Prop :=
  ∀ s : State, coreTurn s = true →
    if (opcodeField s.cmd).toNat ∈
        [0x05, 0x06, 0x07, 0x0A, 0x0B, 0x0C, 0x0D, 0x0E, 0x0F, 0x15, 0x16, 0x17, 0x19, 0x1A, 0x1B, 0x1C, 0x1D,
          0x1E, 0x1F] ∨ 0x22 ≤ (opcodeField s.cmd).toNat then
      step s = .next (raiseError .illegalOpcode s)
    else
      decode s.cmd ≠ .error .illegalOpcode ∧
        (s.flagsAgree → ∀ t, step s = .next t → t.errcode ≠ .illegalOpcode)

/-- A 1 in a bit its format reserves makes a word with a mapped opcode raise RESERVED_FIELD (R92, R101). -/
def Obligations.ReservedBitsRaiseReservedField : Prop :=
  ∀ s : State, coreTurn s = true →
    (opcodeField s.cmd ∈ [0x00, 0x01, 0x02, 0x03, 0x04, 0x11, 0x12, 0x13] ∧ s.cmd.extractLsb' 8 24 ≠ 0 ∨
      opcodeField s.cmd ∈ [0x08, 0x09] ∧ s.cmd.extractLsb' 16 16 ≠ 0 ∨
      opcodeField s.cmd ∈ [0x10, 0x14] ∧ (s.cmd.extractLsb' 22 10 ≠ 0 ∨ s.cmd.extractLsb' 14 2 ≠ 0) ∨
      opcodeField s.cmd = 0x18 ∧ s.cmd.extractLsb' 24 8 ≠ 0 ∨
      opcodeField s.cmd = 0x20 ∧ s.cmd.extractLsb' 20 12 ≠ 0 ∨
      opcodeField s.cmd = 0x21 ∧ s.cmd.extractLsb' 25 7 ≠ 0) →
    step s = .next (raiseError .reservedField s)

/-- The words R105 lists are the encodings of their commands, and decode to them. -/
def Obligations.OftenUsedWordsEncodeAndDecode : Prop :=
  ∀ p ∈ [(Instr.fastkdf 255 79, 0x00FF4F18#32), (.fastkdf 31 255, 0x001FFF18#32), (.fastkdf 127 79, 0x007F4F18#32),
      (.fastkdf 31 127, 0x001F7F18#32), (.smix 7 1 .chacha 20, 0x00731421#32), (.smix 7 1 .salsa 20, 0x00721421#32),
      (.smix 10 0 .salsa 8, 0x00A00821#32), (.b2sInit 0 32, 0x00002010#32), (.b2sHash 32 32, 0x00202014#32),
      (.salsa 20, 0x00001408#32), (.chacha 20, 0x00001409#32)],
    encode p.1 = p.2 ∧ (match decode p.2 with | .ok i => i = p.1 | .error _ => False)

/-- `MIXMODE = CIPHER * 256 + ROUNDS` in both formats that hold it (R98). -/
def Obligations.MixmodePacksCipherAndRounds : Prop :=
  ∀ (nexp : BitVec 5) (rexp : BitVec 3) (c : Cipher) (rounds : BitVec 8),
    (mixmodeField (encode (.smix nexp rexp c rounds))).toNat = (cipherBit c).toNat * 256 + rounds.toNat ∧
      (mixmodeField (encode (.blkmix rexp c rounds))).toNat = (cipherBit c).toNat * 256 + rounds.toNat

/-! ### Steps, acceptance and the register port -/

/-- When it is the core's turn and CMD decodes to a command, the step is that command. -/
def Obligations.StepRunsTheDecodedCommand : Prop :=
  ∀ (s : State) (i : Instr), coreTurn s = true → decode s.cmd = .ok i → step s = exec i s

/-- A word placed by `withFetchWord` is run by the very next step. That it stands for a word just accepted, with `rst`
0 and the latency over, is the model's choice (log 2 and log 3). -/
def Obligations.PlacedWordRunsNext : Prop :=
  ∀ (s : State) (i : Instr),
    step (s.withFetchWord 32 (encode i).toNat) = exec i (s.withFetchWord 32 (encode i).toNat)

/-- A host write of any word to CMD while idle is accepted, and nothing but CMD, STATUS, ERRCODE and the model's own
fields changes (R23). That the step after it runs the whole command the word encodes, when the host then waits or has no
further move, is the model's choice of turns (log 3, over the list of moves of log 2) within what R12 allows. -/
def Obligations.AcceptedWordRunsNext : Prop :=
  ∀ (s : State) (v : Word) (rest : List HostAction), s.rst = false → s.status.busy = false →
    s.host = .wr 0 v :: rest →
    ∃ t l n, step s = .next t ∧
      t = { s with
        cmd := v
        errcode := .none
        status := { s.status with busy := true, done := false, err := false }
        host := rest
        latency := l
        disturbed := false
        freeCtr := n } ∧
      (hostYields rest = true → ∀ i : Instr, v = encode i → step t = exec i t)

/-- A register read changes no state (the read data of the port and the model's counter of free values apart), and a
write to a read-only register or a reserved offset changes nothing at all (R22). -/
def Obligations.ReadsAndReadOnlyWritesHaveNoEffect : Prop :=
  ∀ (s : State) (offset : BitVec 6) (v : Word),
    (∃ d n, readReg (regAt offset) s = { s with regRdata := d, freeCtr := n }) ∧
      (offset = 2 ∨ offset = 3 ∨ 20 ≤ offset.toNat → writeReg (regAt offset) v s = s)

/-- While BUSY, a write to CMD, ARG0..ARG3, H0..H7, T0, T1, F0 or F1 sets LOST and has no other effect (R27, R289). -/
def Obligations.BusyWritesOnlySetLost : Prop :=
  ∀ (s : State) (offset : BitVec 6) (v : Word), s.rst = false → s.status.busy = true →
    (offset = 0 ∨ 4 ≤ offset.toNat ∧ offset.toNat ≤ 19) →
    writeReg (regAt offset) v s = { s with status := { s.status with lost := true } }

/-- What a host read returns. While BUSY: CMD and ARG0..ARG3 as at acceptance, ERRCODE 0, and STATUS with BUSY = 1,
DONE = 0, ERR = 0 and the current ANYERR and LOST (R27). While idle, with BUFLEN in its range: every register as it is
held, STATUS, ERRCODE and B2SCFG with each field at its bits (R21, R23 to R25, R28, R31 to R35, R281). At a reserved
offset 0, BUSY or not (R21). -/
def Obligations.ReadsGiveTheRegisterValues : Prop :=
  ∀ s : State, s.rst = false →
    let read := fun offset : BitVec 6 => (readReg (regAt offset) s).regRdata
    (s.flagsAgree → s.status.busy = true →
      read 0 = s.cmd ∧ read 4 = s.arg0 ∧ read 5 = s.arg1 ∧ read 6 = s.arg2 ∧ read 7 = s.arg3 ∧ read 2 = 0 ∧
        (read 1).toNat = 1 + (if s.status.anyerr then 8 else 0) + (if s.status.lost then 16 else 0)) ∧
    (s.status.busy = false → s.ctx.buflen ≤ 128 →
      read 0 = s.cmd ∧ read 4 = s.arg0 ∧ read 5 = s.arg1 ∧ read 6 = s.arg2 ∧ read 7 = s.arg3 ∧
        (read 1).toNat = (if s.status.done then 2 else 0) + (if s.status.err then 4 else 0) +
          (if s.status.anyerr then 8 else 0) + (if s.status.lost then 16 else 0) ∧
        (read 2).toNat =
          (match s.errcode with
          | .none => 0
          | .illegalOpcode => 1
          | .reservedField => 2
          | .rounds => 3
          | .param => 4
          | .state => 5
          | .length => 6
          | .align => 7
          | .range => 8
          | .alloc => 9
          | .overlap => 10) ∧
        (∀ k : Fin 8, read (BitVec.ofNat 6 (8 + k.val)) = s.ctx.h[k]) ∧
        (read 16).toNat = s.ctx.t.toNat % 2 ^ 32 ∧ (read 17).toNat = s.ctx.t.toNat / 2 ^ 32 ∧
        read 18 = s.ctx.f0 ∧ read 19 = s.ctx.f1 ∧
        (read 20).toNat = s.ctx.outlen.toNat + s.ctx.keylen.toNat * 2 ^ 8 + s.ctx.buflen * 2 ^ 16 +
          (if s.ctx.valid then 2 ^ 24 else 0)) ∧
    ∀ offset : BitVec 6, offset = 3 ∨ 21 ≤ offset.toNat → read offset = 0

/-- A write to STATUS, BUSY or not, clears ANYERR where bit 3 is 1 and LOST where bit 4 is 1, and changes nothing
else (R24). -/
def Obligations.StatusWriteClearsOnlyStickyBits : Prop :=
  ∀ (s : State) (v : Word), s.rst = false →
    writeReg .status v s =
      { s with
        status := { s.status with
          anyerr := if v.extractLsb' 3 1 = 1 then false else s.status.anyerr
          lost := if v.extractLsb' 4 1 = 1 then false else s.status.lost } }

/-- A register the host may write takes the value while idle, and nothing else changes: no other register's value (of
the two halves of T each is written alone), no byte of BUF or of buffer memory, no flag (R21, R28, R31 to R33). -/
def Obligations.IdleRegisterWriteReadsBack : Prop :=
  ∀ (s : State) (offset other : BitVec 6) (v : Word), s.rst = false → s.status.busy = false →
    4 ≤ offset.toNat → offset.toNat ≤ 19 →
    regValue (regAt offset) (writeReg (regAt offset) v s) = v ∧
      (other ≠ offset → regValue (regAt other) (writeReg (regAt offset) v s) = regValue (regAt other) s) ∧
      ∃ a0 a1 a2 a3 h t f0 f1, writeReg (regAt offset) v s =
        { s with
          arg0 := a0
          arg1 := a1
          arg2 := a2
          arg3 := a3
          ctx := { s.ctx with h := h, t := t, f0 := f0, f1 := f1 } }

/-- Every register of the map reads 0 after reset, every byte of BUF is 0 and no command runs (R41, R310): for the
machine right after reset and for any state once `rst` has been driven to 1 and back to 0. That the same values stand
already while `rst` is 1 is the model's choice (log 7); R310 gives them for the moment `rst` returns to 0. -/
def Obligations.ResetGivesTheResetValues : Prop :=
  ∀ (s : State) (offset : BitVec 6), ∀ t ∈ [State.reset, assertReset s, driveReset false (assertReset s)],
    regValue (regAt offset) t = 0 ∧ t.ctx = Ctx.reset ∧ t.ctx.buf = Vector.replicate 128 0 ∧ t.ctx.buflen = 0 ∧
      t.ctx.valid = false ∧ t.status = ⟨false, false, false, false, false⟩

/-- Reset leaves every byte of buffer memory outside the write set of a command it abandons, and all of memory when
none is running (R311, R312). -/
def Obligations.ResetKeepsMemory : Prop :=
  ∀ (s : State) (a : Nat), s.mem.wf →
    (inRegions (runningWriteSet s) a = false → (assertReset s).mem.read a = s.mem.read a) ∧
      (s.status.busy = false → (assertReset s).mem = s.mem)

/-- While `rst` is 1 register writes are ignored and reads return 0 (R310). -/
def Obligations.ResetBlocksTheRegisterPort : Prop :=
  ∀ (s : State) (r : Reg) (v : Word), s.rst = true →
    writeReg r v s = s ∧ readReg r s = { s with regRdata := 0 }

/-- When it is not the core's turn (log 3) the step makes the host's first pending move (log 2), each move its own
access. That a `wait` is one move, and that one move reads STATUS and then ERRCODE, keeps ERRCODE as the read data and
drops the moves that follow when ERR is 1, is the model's choice (log 15; R251, R266). Driving `rst` to 1 resets the
block at that step, and driving it to 0 changes `rst` alone: that the registers take their reset values already when
`rst` rises is the model's choice (log 7), and so is what the read ports then hold (log 12); R310 gives the registers'
values for the moment `rst` returns to 0. A host read of buffer memory returns the stored byte when the core is idle,
and while BUSY outside the running command's write set, and changes nothing of the block. A host write while idle
changes its own byte alone; while BUSY it only makes the command's result undefined (R66, R320), and its byte is lost,
by the model's reading of R251 (log 16). -/
def Obligations.HostMovesAndMemoryAccesses : Prop :=
  (∀ (s : State) (a : HostAction) (rest : List HostAction), coreTurn s = false → s.host = a :: rest →
    let u := { s with host := rest, latency := s.latency - 1 }
    match a with
    | .wr offset v => step s = .next (writeReg (regAt offset) v u)
    | .rd offset => step s = .next (readReg (regAt offset) u)
    | .memWr address v => address.toNat < s.cfg.memSize → step s = .next (hostMemWrite address v u)
    | .memRd address => address.toNat < s.cfg.memSize → step s = .next (hostMemRead address u)
    | .wait => step s = .next (readReg .status u)
    | .abortOnErr => step s = .next
        { readReg .errcode (readReg .status u) with host := if s.rst = false ∧ s.status.err then [] else rest }
    | .rst level => step s = .next (if level then assertReset u else { u with rst := false })) ∧
  ∀ (s : State) (a : Word) (v : Byte), s.mem.wf →
    (∃ d n, hostMemRead a s = { s with memRdata := d, freeCtr := n }) ∧
    (s.status.busy = false ∨ inRegions (runningWriteSet s) a.toNat = false →
      hostMemRead a s = { s with memRdata := s.mem.read a.toNat }) ∧
    ∃ m, hostMemWrite a v s = { s with mem := m, disturbed := s.disturbed || s.status.busy } ∧
      ∀ b, m.read b = if b = a.toNat ∧ s.status.busy = false then v else s.mem.read b

/-- The model's choice (log 8): a host access at or above `MEM_SIZE`, where R36 gives no memory, stops the machine. -/
def Obligations.HostAccessOutsideMemoryStops : Prop :=
  ∀ (s : State) (a : Word) (v : Byte) (rest : List HostAction), coreTurn s = false → s.cfg.memSize ≤ a.toNat →
    (s.host = .memWr a v :: rest ∨ s.host = .memRd a :: rest) →
    step s = .fault (.hostAccessOutsideMemory a)

/-- While idle, with no host move pending, nothing changes (R295, R313). -/
def Obligations.IdleCoreDoesNothing : Prop :=
  ∀ s : State, s.status.busy = false → s.host = [] → step s = .next s

/-- A host whose moves keep its duty disturbs no command and loses no write: the premise of the results holds on
(R320). -/
def Obligations.DutifulHostDisturbsNoCommand : Prop :=
  ∀ s t : State, s.quiet → keepsDuty s = true → step s = .next t →
    t.quiet ∧ (s.status.lost = false → t.status.lost = false)

/-- STATUS changes only by the events R30 lists, each by its own: completion, with or without an error, at the core's
turn (R26); and when the host moves, a write to STATUS (R24), a write ignored while BUSY (R27), the acceptance of a word
written to CMD while idle (R23), and reset. Every other step leaves STATUS as it was. That reset clears STATUS already at
the step that drives `rst` to 1 is the model's choice (log 7); R310 gives it for the moment `rst` returns to 0. -/
def Obligations.StatusChangesOnlyAsListed : Prop :=
  ∀ s t : State, step s = .next t →
    if coreTurn s then
      match decode s.cmd with
      | .ok i =>
        if firstError (checksOf i s) = none then t.status = { s.status with busy := false, done := true }
        else t.status = { s.status with busy := false, done := true, err := true, anyerr := true }
      | .error _ => t.status = { s.status with busy := false, done := true, err := true, anyerr := true }
    else
      match s.host with
      | .wr offset v :: _ =>
        if s.rst then t.status = s.status
        else if offset = 1 then t.status = s.status.writeOneToClear v
        else if s.status.busy ∧ (offset = 0 ∨ 4 ≤ offset.toNat ∧ offset.toNat ≤ 19) then
          t.status = { s.status with lost := true }
        else if offset = 0 then t.status = { s.status with busy := true, done := false, err := false }
        else t.status = s.status
      | .rst true :: _ => t.status = ⟨false, false, false, false, false⟩
      | _ => t.status = s.status

/-! ### Errors -/

/-- Every command answers a next state in every state: none faults and none is refused (R325). -/
def Obligations.EveryCommandCompletes : Prop := ∀ (i : Instr) (s : State), ∃ t, exec i s = .next t

/-- An error with code c, from a word that selects no command or from the first failing check of a command, writes
BUSY = 0, DONE = 1, ERR = 1, ANYERR = 1 and ERRCODE = c, and nothing else changes (R285). -/
def Obligations.ErrorCompletionChangesOnlyFlagsAndCode : Prop :=
  ∀ s : State,
    let failed := fun c : ErrorCode =>
      { s with
        status := { busy := false, done := true, err := true, anyerr := true, lost := s.status.lost }
        errcode := c }
    (∀ (i : Instr) (c : ErrorCode), firstError (checksOf i s) = some c → exec i s = .next (failed c)) ∧
      (coreTurn s = true → decode s.cmd = .error .illegalOpcode → step s = .next (failed .illegalOpcode)) ∧
      (coreTurn s = true → decode s.cmd = .error .reservedField → step s = .next (failed .reservedField))

/-- The reported code is the lowest of those whose checks fail (R282). -/
def Obligations.LowestFailingCodeIsReported : Prop :=
  ∀ (i : Instr) (s t : State), exec i s = .next t → (∃ k ∈ checksOf i s, k.fails = true) →
    (∃ k ∈ checksOf i s, k.fails = true ∧ t.errcode = k.code) ∧
      ∀ k ∈ checksOf i s, k.fails = true → t.errcode.code ≤ k.code.code

/-- COPY, XOR, SWAP and ERASE check LENGTH, then ALIGN, then RANGE (R120, R283). RANGE is the test of R9; that ERASE of a
region ending at 2^32 raises none when `MEM_SIZE` is 2^32 is the model's reading (log 18). -/
def Obligations.UtilityErrors : Prop :=
  ∀ s : State,
    (∀ i ∈ [Instr.copy, .xor, .swap],
      (s.arg3.toNat % 32 ≠ 0 → exec i s = .next (raiseError .length s)) ∧
      (s.arg3.toNat % 32 = 0 → ¬(wordAligned s.arg0 ∧ wordAligned s.arg1) →
        exec i s = .next (raiseError .align s)) ∧
      (s.arg3.toNat % 32 = 0 → wordAligned s.arg0 → wordAligned s.arg1 →
        ¬(s.fits s.arg0 s.arg3.toNat ∧ s.fits s.arg1 s.arg3.toNat) → exec i s = .next (raiseError .range s))) ∧
    (s.arg3.toNat % 32 ≠ 0 → exec .erase s = .next (raiseError .length s)) ∧
    (s.arg3.toNat % 32 = 0 → ¬wordAligned s.arg0 → exec .erase s = .next (raiseError .align s)) ∧
    (s.arg3.toNat % 32 = 0 → wordAligned s.arg0 → ¬s.fits s.arg0 s.arg3.toNat →
      exec .erase s = .next (raiseError .range s))

/-- SALSA and CHACHA check ROUNDS, then ALIGN, then RANGE (R146, R147, R283). -/
def Obligations.PermutationErrors : Prop :=
  ∀ (s : State) (rounds : BitVec 8), ∀ i ∈ [Instr.salsa rounds, .chacha rounds],
    (¬evenRounds rounds → exec i s = .next (raiseError .rounds s)) ∧
    (evenRounds rounds → ¬wordAligned s.arg0 → exec i s = .next (raiseError .align s)) ∧
    (evenRounds rounds → wordAligned s.arg0 → ¬s.fits s.arg0 64 → exec i s = .next (raiseError .range s))

/-- The BLAKE2s commands check PARAM, STATE and RANGE as R283 lists for each. -/
def Obligations.Blake2sErrors : Prop :=
  ∀ (s : State) (keylen outlen : BitVec 6),
    (¬legalDigest keylen outlen →
      exec (.b2sInit keylen outlen) s = .next (raiseError .param s) ∧
        exec (.b2sHash keylen outlen) s = .next (raiseError .param s)) ∧
    (legalDigest keylen outlen → ¬s.fits s.arg1 keylen.toNat →
      exec (.b2sInit keylen outlen) s = .next (raiseError .range s)) ∧
    (legalDigest keylen outlen →
      ¬(s.fits s.arg0 outlen.toNat ∧ s.fits s.arg1 keylen.toNat ∧ s.fits s.arg2 s.arg3.toNat) →
      exec (.b2sHash keylen outlen) s = .next (raiseError .range s)) ∧
    (s.ctx.valid = false →
      exec .b2sUpdate s = .next (raiseError .state s) ∧ exec .b2sFinal s = .next (raiseError .state s)) ∧
    (s.ctx.valid = true → ¬s.fits s.arg1 s.arg3.toNat → exec .b2sUpdate s = .next (raiseError .range s)) ∧
    (s.ctx.valid = true → ¬s.fits s.arg0 s.ctx.outlen.toNat → exec .b2sFinal s = .next (raiseError .range s)) ∧
    (¬s.fits s.arg1 64 → exec .b2sCompress s = .next (raiseError .range s))

/-- FASTKDF checks RANGE alone; BLKMIX and SMIX check ROUNDS, PARAM, ALIGN and RANGE, and SMIX then ALLOC and OVERLAP
(R215, R232, R236, R283). -/
def Obligations.FastkdfAndMixerErrors : Prop :=
  ∀ (s : State) (a b : BitVec 8) (nexp : BitVec 5) (rexp : BitVec 3) (c : Cipher) (rounds : BitVec 8),
    (¬(s.fits s.arg0 (b.toNat + 1) ∧ s.fits s.arg1 80 ∧ s.fits s.arg2 (a.toNat + 1)) →
      exec (.fastkdf b a) s = .next (raiseError .range s)) ∧
    (¬evenRounds rounds →
      exec (.blkmix rexp c rounds) s = .next (raiseError .rounds s) ∧
        exec (.smix nexp rexp c rounds) s = .next (raiseError .rounds s)) ∧
    (evenRounds rounds → s.cfg.rMax < 2 ^ rexp.toNat →
      exec (.blkmix rexp c rounds) s = .next (raiseError .param s) ∧
        exec (.smix nexp rexp c rounds) s = .next (raiseError .param s)) ∧
    (evenRounds rounds → exec (.smix 0 rexp c rounds) s = .next (raiseError .param s)) ∧
    (evenRounds rounds → 2 ^ rexp.toNat ≤ s.cfg.rMax → ¬wordAligned s.arg0 →
      exec (.blkmix rexp c rounds) s = .next (raiseError .align s)) ∧
    (evenRounds rounds → 2 ^ rexp.toNat ≤ s.cfg.rMax → wordAligned s.arg0 →
      ¬s.fits s.arg0 (128 * 2 ^ rexp.toNat) → exec (.blkmix rexp c rounds) s = .next (raiseError .range s)) ∧
    (evenRounds rounds → 2 ^ rexp.toNat ≤ s.cfg.rMax → nexp ≠ 0 →
      if ¬(wordAligned s.arg0 ∧ wordAligned s.arg1) then
        exec (.smix nexp rexp c rounds) s = .next (raiseError .align s)
      else if ¬s.fits s.arg0 (128 * 2 ^ rexp.toNat) then
        exec (.smix nexp rexp c rounds) s = .next (raiseError .range s)
      else if ¬s.fits s.arg1 (2 ^ nexp.toNat * (128 * 2 ^ rexp.toNat)) then
        exec (.smix nexp rexp c rounds) s = .next (raiseError .alloc s)
      else if s.arg0.toNat < s.arg1.toNat + 2 ^ nexp.toNat * (128 * 2 ^ rexp.toNat) ∧
          s.arg1.toNat < s.arg0.toNat + 128 * 2 ^ rexp.toNat then
        exec (.smix nexp rexp c rounds) s = .next (raiseError .overlap s)
      else True)

/-! ### What each command does when its checks pass -/

/-- NOP completes and changes nothing else (R250, R26). -/
def Obligations.NopOnlyCompletes : Prop :=
  ∀ s : State, s.disturbed = false →
    exec .nop s = .next { s with status := { s.status with busy := false, done := true } }

/-- COPY: the destination takes the source bytes, the first `dst - src` of them repeated when the destination starts
inside the source; every other byte and register is unchanged (R121). -/
def Obligations.CopyResult : Prop :=
  ∀ s : State, s.quiet → s.arg3.toNat % 32 = 0 → wordAligned s.arg0 → wordAligned s.arg1 →
    s.fits s.arg0 s.arg3.toNat → s.fits s.arg1 s.arg3.toNat →
    ∃ m, exec .copy s = .next (complete { s with mem := m }) ∧
      (∀ k < s.arg3.toNat, m.read (s.arg0.toNat + k) =
        if s.arg1.toNat < s.arg0.toNat ∧ s.arg0.toNat < s.arg1.toNat + s.arg3.toNat then
          s.mem.read (s.arg1.toNat + k % (s.arg0.toNat - s.arg1.toNat))
        else s.mem.read (s.arg1.toNat + k)) ∧
      s.sameOutside m [region s.arg0 s.arg3.toNat]

/-- ERASE: every byte of the region becomes 0; every other byte and register is unchanged (R122). That a region ending at
2^32 is in range when `MEM_SIZE` is 2^32 is the model's reading (log 18). -/
def Obligations.EraseResult : Prop :=
  ∀ s : State, s.quiet → s.arg3.toNat % 32 = 0 → wordAligned s.arg0 → s.fits s.arg0 s.arg3.toNat →
    ∃ m, exec .erase s = .next (complete { s with mem := m }) ∧
      (∀ k < s.arg3.toNat, m.read (s.arg0.toNat + k) = 0) ∧ s.sameOutside m [region s.arg0 s.arg3.toNat]

/-- XOR: each destination byte is XORed with its source byte, the one just written where the loop has already written
it; every other byte and register is unchanged (R123). -/
def Obligations.XorResult : Prop :=
  ∀ s : State, s.quiet → s.arg3.toNat % 32 = 0 → wordAligned s.arg0 → wordAligned s.arg1 →
    s.fits s.arg0 s.arg3.toNat → s.fits s.arg1 s.arg3.toNat →
    ∃ m, exec .xor s = .next (complete { s with mem := m }) ∧
      (∀ k < s.arg3.toNat, m.read (s.arg0.toNat + k) = s.mem.read (s.arg0.toNat + k) ^^^
        (if s.arg0.toNat ≤ s.arg1.toNat + k ∧ s.arg1.toNat + k < s.arg0.toNat + k then
          m.read (s.arg1.toNat + k)
        else s.mem.read (s.arg1.toNat + k))) ∧
      s.sameOutside m [region s.arg0 s.arg3.toNat]

/-- SWAP: separate regions are exchanged. Where they overlap, by `d` apart, the byte loop moves the bytes above the
lower region's first `d` down by `d`, and those first `d` bytes travel up in steps of `d` (R72 and the loop of R124).
This overlap clause is the model's reading (log 13): R124's corner case calls the result a rotation of the union, which
its own loop gives only where `d` divides the length. -/
def Obligations.SwapResult : Prop :=
  ∀ (s : State) (lo d n : Nat), s.quiet → s.arg3.toNat % 32 = 0 → wordAligned s.arg0 → wordAligned s.arg1 →
    s.fits s.arg0 s.arg3.toNat → s.fits s.arg1 s.arg3.toNat →
    lo = min s.arg0.toNat s.arg1.toNat → lo + d = max s.arg0.toNat s.arg1.toNat → n = s.arg3.toNat →
    ∃ m, exec .swap s = .next (complete { s with mem := m }) ∧
      (if d = 0 then ∀ a, m.read a = s.mem.read a
       else if n ≤ d then
        ∀ k < n, m.read (lo + k) = s.mem.read (lo + d + k) ∧ m.read (lo + d + k) = s.mem.read (lo + k)
       else
        (∀ k < n, m.read (lo + k) = s.mem.read (lo + k + d)) ∧
          ∀ j < d, m.read (lo + n + j) = s.mem.read (lo + (n + j) % d)) ∧
      s.sameOutside m [region s.arg0 n, region s.arg1 n]

/-- SALSA and CHACHA replace the 64 bytes at ARG0 by the core of the block read from them; nothing else changes
(R146, R147). -/
def Obligations.PermutationResult : Prop :=
  ∀ (s : State) (rounds : BitVec 8), s.quiet → evenRounds rounds → wordAligned s.arg0 → s.fits s.arg0 64 →
    ∀ p ∈ [(Instr.salsa rounds, Cipher.salsa), (Instr.chacha rounds, Cipher.chacha)],
      ∃ m, exec p.1 s = .next (complete { s with mem := m }) ∧
        m.readBytes s.arg0.toNat 64 =
          bytesOfBlock (cipherCore p.2 rounds.toNat (blockOfBytes (s.mem.readBytes s.arg0.toNat 64))) ∧
        s.sameOutside m [region s.arg0 64]

/-- B2S_INIT opens a fresh context: H from the parameter block, T and F zero, BUF holding the key (if any) and zeros,
BUFLEN 0 or 64; memory and the other registers are unchanged (R174, R175, R183). -/
def Obligations.B2sInitResult : Prop :=
  ∀ (s : State) (keylen outlen : BitVec 6), s.quiet → legalDigest keylen outlen → s.fits s.arg1 keylen.toNat →
    ∃ c, exec (.b2sInit keylen outlen) s = .next (complete { s with ctx := c }) ∧
      c.h[0] = 0x6A09E667 ^^^ (0x01010000 ||| (keylen.setWidth 32 <<< 8) ||| outlen.setWidth 32) ∧
      (∀ k : Fin 8, k ≠ 0 → c.h[k] = iv[k]) ∧
      c.t = 0 ∧ c.f0 = 0 ∧ c.f1 = 0 ∧
      (∀ k : Fin 128, c.buf[k] = if k.val < keylen.toNat then s.mem.read (s.arg1.toNat + k.val) else 0) ∧
      c.buflen = (if keylen = 0 then 0 else 64) ∧ c.outlen = outlen ∧ c.keylen = keylen ∧ c.valid = true

/-- B2S_UPDATE appends the bytes of its operand to the open context. While they fit in one block nothing is
compressed: H and T stay and BUF takes them (R176, R184). -/
def Obligations.B2sUpdateResult : Prop :=
  ∀ s : State, s.quiet → s.ctx.valid = true → s.fits s.arg1 s.arg3.toNat →
    exec .b2sUpdate s = .next (complete
      { s with ctx := ctxUpdate s.ctx (s.mem.readBytes s.arg1.toNat s.arg3.toNat) }) ∧
    (s.ctx.buflen + s.arg3.toNat ≤ 64 →
      ∃ buf, ctxUpdate s.ctx (s.mem.readBytes s.arg1.toNat s.arg3.toNat) =
          { s.ctx with buf := buf, buflen := s.ctx.buflen + s.arg3.toNat } ∧
        ∀ k : Fin 128, buf[k] =
          if s.ctx.buflen ≤ k.val ∧ k.val < s.ctx.buflen + s.arg3.toNat then
            s.mem.read (s.arg1.toNat + (k.val - s.ctx.buflen))
          else s.ctx.buf[k])

/-- Appending bytes to a context with BUFLEN at most 64 leaves BUFLEN between 1 and 64 (no byte leaves the context as it was), F,
the lengths and VALID as they were, and T + BUFLEN advanced by the number of bytes (R34, R176, R177). -/
def Obligations.UpdateCountsItsBytes : Prop :=
  ∀ (c : Ctx) (data : List Byte), c.buflen ≤ 64 →
    (ctxUpdate c data).t + BitVec.ofNat 64 (ctxUpdate c data).buflen =
        c.t + BitVec.ofNat 64 (c.buflen + data.length) ∧
      (ctxUpdate c data).buflen ≤ 64 ∧ (data ≠ [] → 1 ≤ (ctxUpdate c data).buflen) ∧
      (data = [] → ctxUpdate c data = c) ∧
      (ctxUpdate c data).f0 = c.f0 ∧ (ctxUpdate c data).f1 = c.f1 ∧ (ctxUpdate c data).outlen = c.outlen ∧
      (ctxUpdate c data).keylen = c.keylen ∧ (ctxUpdate c data).valid = c.valid

/-- B2S_FINAL compresses the buffered bytes padded with zeros under F0 all ones and T advanced by BUFLEN, closes the
context, keeps F1, BUFLEN, OUTLEN and KEYLEN, and writes the first OUTLEN bytes of the new chain value (R177, R178,
R185). BUFLEN ≤ 64 and OUTLEN ≤ 32 hold in every state the machine reaches. -/
def Obligations.B2sFinalResult : Prop :=
  ∀ s : State, s.quiet → s.ctx.lengthsLegal → s.ctx.valid = true → s.fits s.arg0 s.ctx.outlen.toNat →
    ∃ c m, exec .b2sFinal s = .next (complete { s with ctx := c, mem := m }) ∧
      c.t = s.ctx.t + BitVec.ofNat 64 s.ctx.buflen ∧
      c.h = compress s.ctx.h
        (s.ctx.buf.toList.take s.ctx.buflen ++ List.replicate (64 - s.ctx.buflen) 0) c.t 0xFFFFFFFF s.ctx.f1 ∧
      c.f0 = 0xFFFFFFFF ∧ c.f1 = s.ctx.f1 ∧ c.buflen = s.ctx.buflen ∧ c.outlen = s.ctx.outlen ∧
      c.keylen = s.ctx.keylen ∧ c.valid = false ∧
      (∀ k : Fin 128, c.buf[k] = if k.val < s.ctx.buflen then s.ctx.buf[k] else 0) ∧
      (∀ k < s.ctx.outlen.toNat, m.read (s.arg0.toNat + k) =
        ((c.h.toList.getD (k / 4) 0).extractLsb' (8 * (k % 4)) 8)) ∧
      s.sameOutside m [region s.arg0 s.ctx.outlen.toNat]

/-- B2S_COMPRESS replaces H by one compression of the block under the context's own T, F0 and F1, open or not, and
changes nothing else (R186). -/
def Obligations.B2sCompressResult : Prop :=
  ∀ s : State, s.quiet → s.fits s.arg1 64 →
    exec .b2sCompress s = .next (complete
      { s with
        ctx := { s.ctx with
          h := compress s.ctx.h (s.mem.readBytes s.arg1.toNat 64) s.ctx.t s.ctx.f0 s.ctx.f1 } })

/-- B2S_HASH writes the keyed hash of the input as it stood before, and leaves the architectural context alone
(R180, R187). -/
def Obligations.B2sHashResult : Prop :=
  ∀ (s : State) (keylen outlen : BitVec 6), s.quiet → legalDigest keylen outlen →
    s.fits s.arg0 outlen.toNat → s.fits s.arg1 keylen.toNat → s.fits s.arg2 s.arg3.toNat →
    ∃ m, exec (.b2sHash keylen outlen) s = .next (complete { s with mem := m }) ∧
      m.readBytes s.arg0.toNat outlen.toNat =
        keyedHash outlen keylen (s.mem.readBytes s.arg1.toNat keylen.toNat)
          (s.mem.readBytes s.arg2.toNat s.arg3.toNat) ∧
      s.sameOutside m [region s.arg0 outlen.toNat]

/-- FASTKDF writes the OLEN bytes derived from the password and the salt as they stood before, and leaves the
BLAKE2s context alone (R215). -/
def Obligations.FastkdfResult : Prop :=
  ∀ (s : State) (olenm1 slenm1 : BitVec 8), s.quiet →
    s.fits s.arg0 (olenm1.toNat + 1) → s.fits s.arg1 80 → s.fits s.arg2 (slenm1.toNat + 1) →
    ∃ m, exec (.fastkdf olenm1 slenm1) s = .next (complete { s with mem := m }) ∧
      m.readBytes s.arg0.toNat (olenm1.toNat + 1) =
        fastKdf (s.mem.readBytes s.arg1.toNat 80) (s.mem.readBytes s.arg2.toNat (slenm1.toNat + 1))
          (slenm1.toNat + 1) (olenm1.toNat + 1) ∧
      s.sameOutside m [region s.arg0 (olenm1.toNat + 1)]

/-- BLKMIX replaces the chain at ARG0 by its block mix and changes nothing else (R230, R232). -/
def Obligations.BlkmixResult : Prop :=
  ∀ (s : State) (rexp : BitVec 3) (c : Cipher) (rounds : BitVec 8) (r : Nat), s.quiet → r = 2 ^ rexp.toNat →
    evenRounds rounds → r ≤ s.cfg.rMax → wordAligned s.arg0 → s.fits s.arg0 (128 * r) →
    ∃ m, exec (.blkmix rexp c rounds) s = .next (complete { s with mem := m }) ∧
      m.readBytes s.arg0.toNat (128 * r) =
        bytesOfChain (blockMix c rounds.toNat r (readChain s.mem s.arg0.toNat r)) ∧
      s.sameOutside m [region s.arg0 (128 * r)]

/-- SMIX computes scrypt's memory-hard mix of the chain at ARG0. Slot `i` of V ends as the chain mixed `i` times; from
the chain mixed N times, each of N steps XORs in the slot its last block selects and mixes; X takes the last chain. The
result does not depend on what V held before, and nothing outside X and V changes (R233, R234, R236, R264). -/
def Obligations.SmixResult : Prop :=
  ∀ (s : State) (nexp : BitVec 5) (rexp : BitVec 3) (c : Cipher) (rounds : BitVec 8) (n r : Nat) (x : Chain),
    s.quiet → r = 2 ^ rexp.toNat → n = 2 ^ nexp.toNat → x = readChain s.mem s.arg0.toNat r →
    evenRounds rounds → r ≤ s.cfg.rMax → nexp ≠ 0 → wordAligned s.arg0 → wordAligned s.arg1 →
    s.fits s.arg0 (128 * r) → s.fits s.arg1 (n * (128 * r)) →
    (s.arg1.toNat + n * (128 * r) ≤ s.arg0.toNat ∨ s.arg0.toNat + 128 * r ≤ s.arg1.toNat) →
    ∃ (m : Memory) (xs : Nat → Chain), exec (.smix nexp rexp c rounds) s = .next (complete { s with mem := m }) ∧
      xs 0 = (blockMix c rounds.toNat r)^[n] x ∧
      (∀ k < n, xs (k + 1) = blockMix c rounds.toNat r
        (xorChains (xs k) ((blockMix c rounds.toNat r)^[smixIndex r n (xs k)] x))) ∧
      m.readBytes s.arg0.toNat (128 * r) = bytesOfChain (xs n) ∧
      (∀ i < n, m.readBytes (s.arg1.toNat + i * (128 * r)) (128 * r) =
        bytesOfChain ((blockMix c rounds.toNat r)^[i] x)) ∧
      s.sameOutside m [region s.arg0 (128 * r), region s.arg1 (n * (128 * r))]

/-! ### Frames over all commands -/

/-- No command changes a byte outside the write set R70 gives it, disturbed by the host or not (R70, R284). -/
def Obligations.CommandsWriteOnlyTheirWriteSet : Prop :=
  ∀ (i : Instr) (s t : State), s.mem.wf → exec i s = .next t →
    s.sameOutside t.mem (writeSet i s) ∧
      (i ∈ [Instr.nop, .b2sUpdate, .b2sCompress] ∨ (∃ k o, i = .b2sInit k o) → t.mem = s.mem)

/-- No command writes CMD, ARG0..ARG3, a parameter, `rst`, the host's moves or LOST, and none sets BUSY; only B2S_INIT,
B2S_UPDATE, B2S_FINAL and B2S_COMPRESS write the context, the last H alone, and B2S_UPDATE neither F nor the lengths
nor VALID (R28, R31 to R35, R39). -/
def Obligations.CommandsKeepTheOtherRegisters : Prop :=
  ∀ (i : Instr) (s t : State), exec i s = .next t →
    (t.cmd = s.cmd ∧ t.arg0 = s.arg0 ∧ t.arg1 = s.arg1 ∧ t.arg2 = s.arg2 ∧ t.arg3 = s.arg3 ∧ t.cfg = s.cfg ∧
      t.rst = s.rst ∧ t.regRdata = s.regRdata ∧ t.memRdata = s.memRdata ∧ t.host = s.host ∧
      t.status.lost = s.status.lost ∧ t.status.busy = false ∧ t.status.done = true ∧
      (s.status.anyerr = true → t.status.anyerr = true)) ∧
    ((∀ k o, i ≠ .b2sInit k o) → i ≠ .b2sUpdate → i ≠ .b2sFinal → i ≠ .b2sCompress → t.ctx = s.ctx) ∧
    (i = .b2sCompress → ∃ h, t.ctx = { s.ctx with h := h }) ∧
    (i = .b2sUpdate →
      ∃ h n b l, t.ctx = { s.ctx with h := h, t := n, buf := b, buflen := l })

/-- What a command does depends only on the bytes of its read set: two states that differ in memory outside it end with
the same registers and, on the write set, the same bytes (R70, R311). -/
def Obligations.CommandsDependOnlyOnTheirReadSet : Prop :=
  ∀ (i : Instr) (s t t' : State) (m : Memory), s.quiet → m.wf → s.ctx.lengthsLegal →
    (∀ a, inRegions (readSet i s) a = true → m.read a = s.mem.read a) →
    exec i s = .next t → exec i { s with mem := m } = .next t' →
    { t' with mem := t.mem } = t ∧
      (firstError (checksOf i s) = none →
        ∀ a, inRegions (writeSet i s) a = true → t'.mem.read a = t.mem.read a)

/-! ### The units -/

/-- The all-zero block is a fixed point of both cores for every round count (R146, R147). -/
def Obligations.ZeroBlockIsFixedByBothCores : Prop :=
  ∀ (c : Cipher) (rounds : Nat), cipherCore c rounds zeroBlock = zeroBlock

/-- Neither core is an involution: with ROUNDS = 20 and the words `x[k] = k`, SALSA twice, or CHACHA twice, gives a
block different from the input (R148). -/
def Obligations.CoresAreNotInvolutions : Prop :=
  ∀ s : State, s.quiet → wordAligned s.arg0 → s.fits s.arg0 64 →
    (∀ k : Fin 16, (blockOfBytes (s.mem.readBytes s.arg0.toNat 64))[k] = BitVec.ofNat 32 k.val) →
    ∀ i ∈ [Instr.salsa 20, .chacha 20],
      ∃ t u, exec i s = .next t ∧ exec i t = .next u ∧
        blockOfBytes (u.mem.readBytes s.arg0.toNat 64) ≠ blockOfBytes (s.mem.readBytes s.arg0.toNat 64)

/-- `xor(b, b)` gives zeros, `copy` then `xor` gives zeros at the destination, and `swap` twice restores both regions,
for separate regions that pass the checks; for regions that overlap in part, `swap` twice can fail to restore them
(R125). -/
def Obligations.UtilityIdentities : Prop :=
  (∀ s : State, s.quiet → s.arg3.toNat % 32 = 0 → wordAligned s.arg0 → wordAligned s.arg1 →
    s.fits s.arg0 s.arg3.toNat → s.fits s.arg1 s.arg3.toNat →
    (∃ t, exec .xor { s with arg1 := s.arg0 } = .next t ∧
      ∀ k < s.arg3.toNat, t.mem.read (s.arg0.toNat + k) = 0) ∧
    (s.arg0.toNat + s.arg3.toNat ≤ s.arg1.toNat ∨ s.arg1.toNat + s.arg3.toNat ≤ s.arg0.toNat →
      (∃ t u, exec .copy s = .next t ∧ exec .xor t = .next u ∧
        ∀ k < s.arg3.toNat, u.mem.read (s.arg0.toNat + k) = 0) ∧
      (∃ t u, exec .swap s = .next t ∧ exec .swap t = .next u ∧ ∀ a, u.mem.read a = s.mem.read a))) ∧
  ∃ s t u : State, s.quiet ∧ firstError (checksOf .swap s) = none ∧ s.arg0.toNat < s.arg1.toNat ∧
    s.arg1.toNat < s.arg0.toNat + s.arg3.toNat ∧ exec .swap s = .next t ∧ exec .swap t = .next u ∧
    ∃ a, u.mem.read a ≠ s.mem.read a

/-- The incremental law: chunks fed one by one leave the same context, so the same digest, as their concatenation fed
at once; and two B2S_UPDATE commands on adjacent regions leave the context one B2S_UPDATE on both leaves (R179). -/
def Obligations.IncrementalLaw : Prop :=
  (∀ (c : Ctx) (chunks : List (List Byte)),
    ctxFinal (chunks.foldl ctxUpdate c) = ctxFinal (ctxUpdate c chunks.flatten) ∧
      digest (ctxFinal (chunks.foldl ctxUpdate c)) = digest (ctxFinal (ctxUpdate c chunks.flatten))) ∧
  ∀ (s : State) (n : Word), s.quiet → s.ctx.valid = true → s.arg3.toNat + n.toNat < 2 ^ 32 →
    s.arg1.toNat + s.arg3.toNat < 2 ^ 32 → s.fits s.arg1 (s.arg3.toNat + n.toNat) →
    ∃ t u v, exec .b2sUpdate s = .next t ∧
      exec .b2sUpdate { t with arg1 := s.arg1 + s.arg3, arg3 := n } = .next u ∧
      exec .b2sUpdate { s with arg3 := s.arg3 + n } = .next v ∧ u.ctx = v.ctx

/-- The FastKDF PRF is the keyed hash with a 32-byte key, a 64-byte message and a 32-byte digest (R210). -/
def Obligations.PrfIsTheKeyedHash : Prop :=
  ∀ key msg : List Byte, key.length = 32 → msg.length = 64 → prf key msg = keyedHash 32 32 key msg

/-- The host can compute the PRF itself with two B2S_COMPRESS commands between which it sets T and F0 (R255). -/
def Obligations.PrfByRawCompressions : Prop :=
  ∀ (s : State) (key msg : List Byte) (a b : Word), s.quiet → key.length = 32 → msg.length = 64 →
    s.fits a 64 → s.fits b 64 → s.mem.readBytes a.toNat 64 = key ++ List.replicate 32 0 →
    s.mem.readBytes b.toNat 64 = msg → s.ctx.h = paramInit 32 32 → s.ctx.t = 64 → s.ctx.f0 = 0 → s.ctx.f1 = 0 →
    ∃ t u, exec .b2sCompress { s with arg1 := a } = .next t ∧
      exec .b2sCompress { t with arg1 := b, ctx := { t.ctx with t := 128, f0 := 0xFFFFFFFF } } = .next u ∧
      leBytes u.ctx.h.toList = prf key msg

/-- After setup and after every iteration the last 32 bytes of B repeat its first 32, so every 32-byte window of B
reads the 256-byte ring (R213). -/
def Obligations.KdfBufferIsARing : Prop :=
  ∀ (password salt : List Byte) (slen n : Nat), 1 ≤ slen → slen ≤ 256 → salt.length = slen →
    let l := kdfLoop (kdfBufferA password) (kdfBufferB salt slen) n
    l.bufptr < 256 ∧ l.b.length = 288 ∧
      (∀ k < 32, l.b.getD (256 + k) 0 = l.b.getD k 0) ∧
      ∀ p < 256, ∀ k < 32, (window l.b p 32).getD k 0 = l.b.getD ((p + k) % 256) 0

/-- A shorter FASTKDF output is a prefix of a longer one of the same password and salt (R215, R217). -/
def Obligations.ShorterKdfOutputIsAPrefix : Prop :=
  ∀ (password salt : List Byte) (slen olen n : Nat), n ≤ olen → olen ≤ 256 →
    (fastKdf password salt slen olen).take n = fastKdf password salt slen n

/-- For r = 1 the mixed chain is (Y[0], Y[1]), for r = 2 it is (Y[0], Y[2], Y[1], Y[3]) (R231). -/
def Obligations.BlockMixOrderForSmallR : Prop :=
  ∀ (c : Cipher) (k : Nat) (a b d e : Block),
    (let y0 := cipherCore c k (xorBlocks b a)
     let y1 := cipherCore c k (xorBlocks y0 b)
     blockMix c k 1 [a, b] = [y0, y1]) ∧
    (let y0 := cipherCore c k (xorBlocks e a)
     let y1 := cipherCore c k (xorBlocks y0 b)
     let y2 := cipherCore c k (xorBlocks y1 d)
     let y3 := cipherCore c k (xorBlocks y2 e)
     blockMix c k 2 [a, b, d, e] = [y0, y2, y1, y3])

/-! ### The invariant -/

/-- The machine right after reset meets the invariant. -/
def Obligations.ResetMeetsTheInvariant : Prop := State.reset.inv

/-- Every step keeps the invariant: memory canonical and within `MEM_SIZE`, the parameters in their ranges, the flags
and ERRCODE in agreement, BUFLEN, OUTLEN and KEYLEN legal, and no command running under `rst` (R24 to R26, R34 to R36,
R281, R310). That the last holds already while `rst` is 1 is the model's choice (log 7). -/
def Obligations.StepKeepsTheInvariant : Prop :=
  ∀ s t : State, s.inv → step s = .next t → t.inv

/-! ### The host's NeoScrypt sequence -/

/-- A profile the host accepts has its reserved and sub-mode bits clear, an r of 1 or 2, and a power of two N of at
least 2 (R258 to R262). -/
def Obligations.AcceptedProfilesAreInRange : Prop :=
  ∀ (cfg : Params) (p : Word) (f : Profile), decodeProfile cfg p = some f →
    p.extractLsb' 13 18 = 0 ∧ p.extractLsb' 1 4 = 0 ∧ (f.r = 1 ∨ f.r = 2) ∧ ∃ k, 1 ≤ k ∧ f.n = 2 ^ k

/-- The words the sequence writes to CMD, in order, for the default profile and for profile 1, wherever the host places
the buffers apart (R263). For a placement in which X, Z (in dual mode), V or the password overlap, or the output
overlaps the password, there is no sequence: this is the model's choice (log 15). R263 forbids the overlaps among X, Z,
V and the password, and the model answers a forbidden placement with no list of moves; that the output must lie apart
from the password the model deduces from R267, by which the sequence leaves the password unchanged. -/
def Obligations.SequenceCommandWords : Prop :=
  ∀ at_ : Placement,
    let words := fun l : List HostAction =>
      l.filterMap fun a => match a with | .wr offset v => if offset = 0 then some v else none | _ => none
    (neoscrypt Params.default 0 at_).map words =
        (if at_.separate { n := 128, r := 2, mixing := .dual 20 20 } then
          some [0x00FF4F18, 0x00000001, 0x00731421, 0x00721421, 0x00000003, 0x001FFF18]
        else none) ∧
      (neoscrypt Params.default 1 at_).map words =
        if at_.separate { n := 1024, r := 1, mixing := .single 8 } then some [0x007F4F18, 0x00A00821, 0x001F7F18]
        else none
end

