-- ==== Sys2Proof/Laws/Memory.lean ====
section
/-! SUPPORT. The laws of buffer memory: a read after a write, every other address unchanged, and the canonical
form kept by every operation. -/

namespace Sys2Proof.Machine

@[simp] theorem forLoop_zero {σ : Type} (f : Nat → σ → σ) (s : σ) : forLoop 0 f s = s := rfl

@[simp] theorem forLoop_succ {σ : Type} (n : Nat) (f : Nat → σ → σ) (s : σ) :
    forLoop (n + 1) f s = f n (forLoop n f s) := rfl

/-- A property the body keeps at every index below `n` is kept by the loop. -/
theorem forLoop_keeps {σ : Type} (P : σ → Prop) (n : Nat) (f : Nat → σ → σ) (s : σ) (h0 : P s)
    (hf : ∀ i < n, ∀ s, P s → P (f i s)) : P (forLoop n f s) := by
  induction n with
  | zero => exact h0
  | succ n ih => exact hf n (by omega) _ (ih fun i hi => hf i (by omega))

@[simp] theorem read_nil (a : Nat) : Memory.read [] a = unlistedByte := rfl

theorem wf_nil : Memory.wf [] := by simp [Memory.wf]

theorem wf_cons (a : Nat) (b : Byte) (m : Memory) :
    Memory.wf ((a, b) :: m) ↔ (∀ c ∈ m, a < c.1) ∧ b ≠ unlistedByte ∧ Memory.wf m := by
  simp only [Memory.wf, List.map_cons, List.pairwise_cons, List.mem_map, List.mem_cons,
    forall_eq_or_imp, forall_exists_index, and_imp, forall_apply_eq_imp_iff₂]
  tauto

/-- An address below every listed one reads as an unlisted byte. -/
theorem read_below (m : Memory) (a : Nat) (h : ∀ c ∈ m, a < c.1) : m.read a = unlistedByte := by
  induction m with
  | nil => rfl
  | cons c m ih =>
    obtain ⟨a', b⟩ := c
    have h1 : a < a' := h (a', b) (by simp)
    rw [Memory.read, if_neg (by omega), ih fun c hc => h c (by simp [hc])]

/-- What a write can leave listed: the new cell or an old one. -/
theorem mem_write (m : Memory) (a : Nat) (v : Byte) (c : Host.Cell) (hc : c ∈ m.write a v) :
    c = (a, v) ∨ c ∈ m := by
  induction m with
  | nil =>
    simp only [Memory.write] at hc
    split at hc <;> simp_all
  | cons d m ih =>
    obtain ⟨a', b⟩ := d
    simp only [Memory.write] at hc
    split at hc
    · split at hc <;> simp_all
    · split at hc
      · split at hc <;> simp_all
        tauto
      · rcases List.mem_cons.1 hc with h | h
        · simp [h]
        · rcases ih h with h | h <;> simp [h]

/-- A write keeps the canonical form. -/
theorem wf_write (m : Memory) (a : Nat) (v : Byte) (h : m.wf) : (m.write a v).wf := by
  induction m with
  | nil =>
    unfold Memory.write
    split
    · exact wf_nil
    · exact (wf_cons a v []).2 ⟨by simp, by assumption, wf_nil⟩
  | cons d m ih =>
    obtain ⟨a', b⟩ := d
    obtain ⟨h1, h2, h3⟩ := (wf_cons _ _ _).1 h
    unfold Memory.write
    split
    · split
      · exact h
      · refine (wf_cons _ _ _).2 ⟨?_, by assumption, h⟩
        intro c hc
        rcases List.mem_cons.1 hc with rfl | hc
        · assumption
        · have := h1 c hc; omega
    · split
      · split
        · exact h3
        · exact (wf_cons _ _ _).2 ⟨h1, by assumption, h3⟩
      · refine (wf_cons _ _ _).2 ⟨?_, h2, ih h3⟩
        intro c hc
        rcases mem_write m a v c hc with rfl | hc
        · simp only; omega
        · exact h1 c hc

/-- A write below `memSize` keeps the memory within it. -/
theorem within_write (m : Memory) (a n : Nat) (v : Byte) (h : m.within n) (ha : a < n) :
    (m.write a v).within n := fun c hc => by
  rcases mem_write m a v c hc with rfl | hc
  · exact ha
  · exact h c hc

/-- A read after a write: the value written at its address, every other byte as before. -/
theorem read_write (m : Memory) (h : m.wf) (a a' : Nat) (v : Byte) :
    (m.write a v).read a' = if a' = a then v else m.read a' := by
  induction m with
  | nil =>
    unfold Memory.write
    split
    · simp_all
    · simp [Memory.read]
  | cons d m ih =>
    obtain ⟨x, b⟩ := d
    obtain ⟨h1, h2, h3⟩ := (wf_cons _ _ _).1 h
    unfold Memory.write
    split
    · split
      · split
        · subst_vars
          rw [read_below]
          intro c hc
          rcases List.mem_cons.1 hc with rfl | hc
          · assumption
          · have := h1 c hc; omega
        · rfl
      · simp [Memory.read]
    · split
      · subst_vars
        split
        · subst_vars
          by_cases hx : a' = x
          · subst hx; simp [read_below m a' h1]
          · simp [Memory.read, hx]
        · by_cases hx : a' = x <;> simp [Memory.read, hx]
      · rw [Memory.read, Memory.read, ih h3]
        by_cases hx : a' = x
        · subst hx
          rw [if_pos rfl, if_pos rfl, if_neg (by omega)]
        · rw [if_neg hx, if_neg hx]

theorem read_write_same (m : Memory) (h : m.wf) (a : Nat) (v : Byte) : (m.write a v).read a = v := by
  simp [read_write m h]

theorem read_write_other (m : Memory) (h : m.wf) (a a' : Nat) (v : Byte) (hne : a' ≠ a) :
    (m.write a v).read a' = m.read a' := by
  simp [read_write m h, hne]

@[simp] theorem length_readBytes (m : Memory) (a n : Nat) : (m.readBytes a n).length = n := by
  simp [Memory.readBytes]

theorem wf_writeBytes (m : Memory) (a : Nat) (vs : List Byte) (h : m.wf) : (m.writeBytes a vs).wf := by
  induction vs generalizing m a with
  | nil => exact h
  | cons v vs ih => exact ih _ _ (wf_write m a v h)

theorem within_writeBytes (m : Memory) (a n : Nat) (vs : List Byte) (h : m.within n)
    (ha : a + vs.length ≤ n) : (m.writeBytes a vs).within n := by
  induction vs generalizing m a with
  | nil => exact h
  | cons v vs ih =>
    simp only [List.length_cons] at ha
    exact ih _ _ (within_write m a n v h (by omega)) (by omega)

/-- What a byte reads as after a string is written: the string's byte inside it, as before outside it. -/
theorem read_writeBytes (m : Memory) (h : m.wf) (a a' : Nat) (vs : List Byte) :
    (m.writeBytes a vs).read a' =
      if a ≤ a' ∧ a' < a + vs.length then vs.getD (a' - a) 0 else m.read a' := by
  induction vs generalizing m a with
  | nil => rw [if_neg (by simp)]; rfl
  | cons v vs ih =>
    rw [Memory.writeBytes, ih _ (wf_write m a v h), read_write m h]
    simp only [List.length_cons]
    by_cases hx : a' = a
    · subst hx
      rw [if_neg (by omega), if_pos rfl, if_pos (by omega)]
      simp
    · rw [if_neg hx]
      by_cases h1 : a + 1 ≤ a' ∧ a' < a + 1 + vs.length
      · rw [if_pos h1, if_pos (by omega)]
        obtain ⟨k, rfl⟩ : ∃ k, a' = a + 1 + k := ⟨a' - (a + 1), by omega⟩
        rw [show a + 1 + k - (a + 1) = k by omega, show a + 1 + k - a = k + 1 by omega]
        simp
      · rw [if_neg h1, if_neg (by omega)]

/-- The bytes read from where a string was written are the string. -/
theorem readBytes_writeBytes (m : Memory) (h : m.wf) (a : Nat) (vs : List Byte) :
    (m.writeBytes a vs).readBytes a vs.length = vs := by
  apply List.ext_getElem
  · simp
  · intro k h1 h2
    simp only [Memory.readBytes, List.getElem_map, List.getElem_range, read_writeBytes m h]
    rw [if_pos (by omega), show a + k - a = k by omega]
    simp [h2]

theorem copyLoop_wf (d s n : Nat) (m : Memory) (h : m.wf) : (copyLoop d s n m).wf :=
  forLoop_keeps Memory.wf n _ m h fun _ _ m hm => wf_write m _ _ hm

theorem eraseLoop_wf (d n : Nat) (m : Memory) (h : m.wf) : (eraseLoop d n m).wf :=
  forLoop_keeps Memory.wf n _ m h fun _ _ m hm => wf_write m _ _ hm

theorem xorLoop_wf (d s n : Nat) (m : Memory) (h : m.wf) : (xorLoop d s n m).wf :=
  forLoop_keeps Memory.wf n _ m h fun _ _ m hm => wf_write m _ _ hm

theorem swapLoop_wf (a b n : Nat) (m : Memory) (h : m.wf) : (swapLoop a b n m).wf :=
  forLoop_keeps Memory.wf n _ m h fun _ _ m hm => wf_write _ _ _ (wf_write m _ _ hm)

theorem smixFill_wf (c : Cipher) (rounds r v k : Nat) (l : SmixLoop) (h : l.mem.wf) :
    (smixFill c rounds r v k l).mem.wf :=
  forLoop_keeps (fun l : SmixLoop => l.mem.wf) k _ l h fun _ _ l hl => wf_writeBytes l.mem _ _ hl

/-- The mix phase leaves memory as the fill phase left it (R234). -/
theorem smixRun_mem (c : Cipher) (rounds r n v : Nat) (l : SmixLoop) :
    (smixRun c rounds r n v l).mem = (smixFill c rounds r v n l).mem :=
  forLoop_keeps (fun x : SmixLoop => x.mem = (smixFill c rounds r v n l).mem) n _ _ rfl fun _ _ _ hl => hl

theorem scrambleRegion_wf (n : Nat) (m : Memory) (r : Region) (h : m.wf) : (scrambleRegion n m r).wf :=
  forLoop_keeps Memory.wf r.size _ m h fun _ _ m hm => wf_write m _ _ hm

theorem scramble_wf (n : Nat) (rs : List Region) (m : Memory) (h : m.wf) : (scramble n rs m).wf := by
  induction rs generalizing m with
  | nil => exact h
  | cons r rs ih => exact ih _ (scrambleRegion_wf n m r h)

theorem read_scrambleRegion (n : Nat) (m : Memory) (r : Region) (h : m.wf) (a : Nat) :
    (scrambleRegion n m r).read a = if r.holds a then Config.freeByte n a else m.read a := by
  obtain ⟨base, size⟩ := r
  suffices H : ∀ k, (forLoop k (fun k m => m.write (base + k) (Config.freeByte n (base + k))) m).wf ∧
      (forLoop k (fun k m => m.write (base + k) (Config.freeByte n (base + k))) m).read a =
        if base ≤ a ∧ a < base + k then Config.freeByte n a else m.read a by
    have := (H size).2
    simpa [scrambleRegion, Region.holds] using this
  intro k
  induction k with
  | zero => exact ⟨h, by rw [if_neg (by omega)]; rfl⟩
  | succ k ih =>
    refine ⟨wf_write _ _ _ ih.1, ?_⟩
    rw [forLoop_succ, read_write _ ih.1, ih.2]
    by_cases hx : a = base + k
    · subst hx; rw [if_pos rfl, if_pos (by omega)]
    · rw [if_neg hx]
      by_cases h1 : base ≤ a ∧ a < base + k
      · rw [if_pos h1, if_pos (by omega)]
      · rw [if_neg h1, if_neg (by omega)]

/-- A scrambled byte is the free value of its address; every other byte reads as before. -/
theorem read_scramble (n : Nat) (rs : List Region) (m : Memory) (h : m.wf) (a : Nat) :
    (scramble n rs m).read a = if inRegions rs a then Config.freeByte n a else m.read a := by
  induction rs generalizing m with
  | nil => rfl
  | cons r rs ih =>
    rw [scramble, List.foldl_cons, ← scramble, ih _ (scrambleRegion_wf n m r h),
      read_scrambleRegion n m r h]
    by_cases h1 : r.holds a <;> by_cases h2 : inRegions rs a <;> simp_all [inRegions]

/-- The memory right after reset is in canonical form. -/
theorem reset_mem_wf : State.reset.mem.wf := wf_nil

end Sys2Proof.Machine
end

