-- ==== Sys2Proof/Laws/State.lean ====
section
/-! SUPPORT. What each named update of the state leaves in each field, so that no proof unfolds a record update. -/

namespace Sys2Proof.Machine

@[simp] theorem accept_cfg (w : Word) (s : State) : (accept w s).cfg = s.cfg := rfl
@[simp] theorem accept_cmd (w : Word) (s : State) : (accept w s).cmd = w := rfl
@[simp] theorem accept_status (w : Word) (s : State) : (accept w s).status = { s.status with busy := true, done := false, err := false } := rfl
@[simp] theorem accept_errcode (w : Word) (s : State) : (accept w s).errcode = .none := rfl
@[simp] theorem accept_arg0 (w : Word) (s : State) : (accept w s).arg0 = s.arg0 := rfl
@[simp] theorem accept_arg1 (w : Word) (s : State) : (accept w s).arg1 = s.arg1 := rfl
@[simp] theorem accept_arg2 (w : Word) (s : State) : (accept w s).arg2 = s.arg2 := rfl
@[simp] theorem accept_arg3 (w : Word) (s : State) : (accept w s).arg3 = s.arg3 := rfl
@[simp] theorem accept_ctx (w : Word) (s : State) : (accept w s).ctx = s.ctx := rfl
@[simp] theorem accept_mem (w : Word) (s : State) : (accept w s).mem = s.mem := rfl
@[simp] theorem accept_rst (w : Word) (s : State) : (accept w s).rst = s.rst := rfl
@[simp] theorem accept_regRdata (w : Word) (s : State) : (accept w s).regRdata = s.regRdata := rfl
@[simp] theorem accept_memRdata (w : Word) (s : State) : (accept w s).memRdata = s.memRdata := rfl
@[simp] theorem accept_host (w : Word) (s : State) : (accept w s).host = s.host := rfl
@[simp] theorem accept_latency (w : Word) (s : State) : (accept w s).latency = Config.latency s.freeCtr := rfl
@[simp] theorem accept_disturbed (w : Word) (s : State) : (accept w s).disturbed = false := rfl
@[simp] theorem accept_freeCtr (w : Word) (s : State) : (accept w s).freeCtr = s.freeCtr + 1 := rfl

@[simp] theorem complete_cfg (s : State) : (complete s).cfg = s.cfg := rfl
@[simp] theorem complete_cmd (s : State) : (complete s).cmd = s.cmd := rfl
@[simp] theorem complete_status (s : State) : (complete s).status = { s.status with busy := false, done := true } := rfl
@[simp] theorem complete_errcode (s : State) : (complete s).errcode = s.errcode := rfl
@[simp] theorem complete_arg0 (s : State) : (complete s).arg0 = s.arg0 := rfl
@[simp] theorem complete_arg1 (s : State) : (complete s).arg1 = s.arg1 := rfl
@[simp] theorem complete_arg2 (s : State) : (complete s).arg2 = s.arg2 := rfl
@[simp] theorem complete_arg3 (s : State) : (complete s).arg3 = s.arg3 := rfl
@[simp] theorem complete_ctx (s : State) : (complete s).ctx = s.ctx := rfl
@[simp] theorem complete_mem (s : State) : (complete s).mem = s.mem := rfl
@[simp] theorem complete_rst (s : State) : (complete s).rst = s.rst := rfl
@[simp] theorem complete_regRdata (s : State) : (complete s).regRdata = s.regRdata := rfl
@[simp] theorem complete_memRdata (s : State) : (complete s).memRdata = s.memRdata := rfl
@[simp] theorem complete_host (s : State) : (complete s).host = s.host := rfl
@[simp] theorem complete_latency (s : State) : (complete s).latency = s.latency := rfl
@[simp] theorem complete_disturbed (s : State) : (complete s).disturbed = s.disturbed := rfl
@[simp] theorem complete_freeCtr (s : State) : (complete s).freeCtr = s.freeCtr := rfl

@[simp] theorem raiseError_cfg (c : ErrorCode) (s : State) : (raiseError c s).cfg = s.cfg := rfl
@[simp] theorem raiseError_cmd (c : ErrorCode) (s : State) : (raiseError c s).cmd = s.cmd := rfl
@[simp] theorem raiseError_status (c : ErrorCode) (s : State) : (raiseError c s).status = { s.status with busy := false, done := true, err := true, anyerr := true } := rfl
@[simp] theorem raiseError_errcode (c : ErrorCode) (s : State) : (raiseError c s).errcode = c := rfl
@[simp] theorem raiseError_arg0 (c : ErrorCode) (s : State) : (raiseError c s).arg0 = s.arg0 := rfl
@[simp] theorem raiseError_arg1 (c : ErrorCode) (s : State) : (raiseError c s).arg1 = s.arg1 := rfl
@[simp] theorem raiseError_arg2 (c : ErrorCode) (s : State) : (raiseError c s).arg2 = s.arg2 := rfl
@[simp] theorem raiseError_arg3 (c : ErrorCode) (s : State) : (raiseError c s).arg3 = s.arg3 := rfl
@[simp] theorem raiseError_ctx (c : ErrorCode) (s : State) : (raiseError c s).ctx = s.ctx := rfl
@[simp] theorem raiseError_mem (c : ErrorCode) (s : State) : (raiseError c s).mem = s.mem := rfl
@[simp] theorem raiseError_rst (c : ErrorCode) (s : State) : (raiseError c s).rst = s.rst := rfl
@[simp] theorem raiseError_regRdata (c : ErrorCode) (s : State) : (raiseError c s).regRdata = s.regRdata := rfl
@[simp] theorem raiseError_memRdata (c : ErrorCode) (s : State) : (raiseError c s).memRdata = s.memRdata := rfl
@[simp] theorem raiseError_host (c : ErrorCode) (s : State) : (raiseError c s).host = s.host := rfl
@[simp] theorem raiseError_latency (c : ErrorCode) (s : State) : (raiseError c s).latency = s.latency := rfl
@[simp] theorem raiseError_disturbed (c : ErrorCode) (s : State) : (raiseError c s).disturbed = s.disturbed := rfl
@[simp] theorem raiseError_freeCtr (c : ErrorCode) (s : State) : (raiseError c s).freeCtr = s.freeCtr := rfl

@[simp] theorem loseWrite_cfg (s : State) : (loseWrite s).cfg = s.cfg := rfl
@[simp] theorem loseWrite_cmd (s : State) : (loseWrite s).cmd = s.cmd := rfl
@[simp] theorem loseWrite_status (s : State) : (loseWrite s).status = { s.status with lost := true } := rfl
@[simp] theorem loseWrite_errcode (s : State) : (loseWrite s).errcode = s.errcode := rfl
@[simp] theorem loseWrite_arg0 (s : State) : (loseWrite s).arg0 = s.arg0 := rfl
@[simp] theorem loseWrite_arg1 (s : State) : (loseWrite s).arg1 = s.arg1 := rfl
@[simp] theorem loseWrite_arg2 (s : State) : (loseWrite s).arg2 = s.arg2 := rfl
@[simp] theorem loseWrite_arg3 (s : State) : (loseWrite s).arg3 = s.arg3 := rfl
@[simp] theorem loseWrite_ctx (s : State) : (loseWrite s).ctx = s.ctx := rfl
@[simp] theorem loseWrite_mem (s : State) : (loseWrite s).mem = s.mem := rfl
@[simp] theorem loseWrite_rst (s : State) : (loseWrite s).rst = s.rst := rfl
@[simp] theorem loseWrite_regRdata (s : State) : (loseWrite s).regRdata = s.regRdata := rfl
@[simp] theorem loseWrite_memRdata (s : State) : (loseWrite s).memRdata = s.memRdata := rfl
@[simp] theorem loseWrite_host (s : State) : (loseWrite s).host = s.host := rfl
@[simp] theorem loseWrite_latency (s : State) : (loseWrite s).latency = s.latency := rfl
@[simp] theorem loseWrite_disturbed (s : State) : (loseWrite s).disturbed = s.disturbed := rfl
@[simp] theorem loseWrite_freeCtr (s : State) : (loseWrite s).freeCtr = s.freeCtr := rfl

@[simp] theorem hostMemWrite_cfg (a : Word) (v : Byte) (s : State) : (hostMemWrite a v s).cfg = s.cfg := rfl
@[simp] theorem hostMemWrite_cmd (a : Word) (v : Byte) (s : State) : (hostMemWrite a v s).cmd = s.cmd := rfl
@[simp] theorem hostMemWrite_status (a : Word) (v : Byte) (s : State) : (hostMemWrite a v s).status = s.status := rfl
@[simp] theorem hostMemWrite_errcode (a : Word) (v : Byte) (s : State) : (hostMemWrite a v s).errcode = s.errcode := rfl
@[simp] theorem hostMemWrite_arg0 (a : Word) (v : Byte) (s : State) : (hostMemWrite a v s).arg0 = s.arg0 := rfl
@[simp] theorem hostMemWrite_arg1 (a : Word) (v : Byte) (s : State) : (hostMemWrite a v s).arg1 = s.arg1 := rfl
@[simp] theorem hostMemWrite_arg2 (a : Word) (v : Byte) (s : State) : (hostMemWrite a v s).arg2 = s.arg2 := rfl
@[simp] theorem hostMemWrite_arg3 (a : Word) (v : Byte) (s : State) : (hostMemWrite a v s).arg3 = s.arg3 := rfl
@[simp] theorem hostMemWrite_ctx (a : Word) (v : Byte) (s : State) : (hostMemWrite a v s).ctx = s.ctx := rfl
@[simp] theorem hostMemWrite_mem (a : Word) (v : Byte) (s : State) : (hostMemWrite a v s).mem = if s.status.busy then s.mem else s.mem.write a.toNat v :=
  rfl
@[simp] theorem hostMemWrite_rst (a : Word) (v : Byte) (s : State) : (hostMemWrite a v s).rst = s.rst := rfl
@[simp] theorem hostMemWrite_regRdata (a : Word) (v : Byte) (s : State) : (hostMemWrite a v s).regRdata = s.regRdata := rfl
@[simp] theorem hostMemWrite_memRdata (a : Word) (v : Byte) (s : State) : (hostMemWrite a v s).memRdata = s.memRdata := rfl
@[simp] theorem hostMemWrite_host (a : Word) (v : Byte) (s : State) : (hostMemWrite a v s).host = s.host := rfl
@[simp] theorem hostMemWrite_latency (a : Word) (v : Byte) (s : State) : (hostMemWrite a v s).latency = s.latency := rfl
@[simp] theorem hostMemWrite_disturbed (a : Word) (v : Byte) (s : State) : (hostMemWrite a v s).disturbed = (s.disturbed || s.status.busy) := rfl
@[simp] theorem hostMemWrite_freeCtr (a : Word) (v : Byte) (s : State) : (hostMemWrite a v s).freeCtr = s.freeCtr := rfl

@[simp] theorem assertReset_cfg (s : State) : (assertReset s).cfg = s.cfg := rfl
@[simp] theorem assertReset_cmd (s : State) : (assertReset s).cmd = 0 := rfl
@[simp] theorem assertReset_status (s : State) : (assertReset s).status = State.reset.status := rfl
@[simp] theorem assertReset_errcode (s : State) : (assertReset s).errcode = .none := rfl
@[simp] theorem assertReset_arg0 (s : State) : (assertReset s).arg0 = 0 := rfl
@[simp] theorem assertReset_arg1 (s : State) : (assertReset s).arg1 = 0 := rfl
@[simp] theorem assertReset_arg2 (s : State) : (assertReset s).arg2 = 0 := rfl
@[simp] theorem assertReset_arg3 (s : State) : (assertReset s).arg3 = 0 := rfl
@[simp] theorem assertReset_ctx (s : State) : (assertReset s).ctx = Ctx.reset := rfl
@[simp] theorem assertReset_mem (s : State) : (assertReset s).mem = scramble s.freeCtr (runningWriteSet s) s.mem := rfl
@[simp] theorem assertReset_rst (s : State) : (assertReset s).rst = true := rfl
@[simp] theorem assertReset_regRdata (s : State) : (assertReset s).regRdata = s.regRdata := rfl
@[simp] theorem assertReset_memRdata (s : State) : (assertReset s).memRdata = s.memRdata := rfl
@[simp] theorem assertReset_host (s : State) : (assertReset s).host = s.host := rfl
@[simp] theorem assertReset_latency (s : State) : (assertReset s).latency = 0 := rfl
@[simp] theorem assertReset_disturbed (s : State) : (assertReset s).disturbed = false := rfl
@[simp] theorem assertReset_freeCtr (s : State) : (assertReset s).freeCtr = s.freeCtr + 1 := rfl

@[simp] theorem withFetchWord_cfg (s : State) (n w : Nat) : (s.withFetchWord n w).cfg = s.cfg := rfl
@[simp] theorem withFetchWord_cmd (s : State) (n w : Nat) : (s.withFetchWord n w).cmd = BitVec.ofNat 32 (w % 2 ^ n) := rfl
@[simp] theorem withFetchWord_status (s : State) (n w : Nat) : (s.withFetchWord n w).status = { s.status with busy := true, done := false, err := false } := rfl
@[simp] theorem withFetchWord_errcode (s : State) (n w : Nat) : (s.withFetchWord n w).errcode = .none := rfl
@[simp] theorem withFetchWord_arg0 (s : State) (n w : Nat) : (s.withFetchWord n w).arg0 = s.arg0 := rfl
@[simp] theorem withFetchWord_arg1 (s : State) (n w : Nat) : (s.withFetchWord n w).arg1 = s.arg1 := rfl
@[simp] theorem withFetchWord_arg2 (s : State) (n w : Nat) : (s.withFetchWord n w).arg2 = s.arg2 := rfl
@[simp] theorem withFetchWord_arg3 (s : State) (n w : Nat) : (s.withFetchWord n w).arg3 = s.arg3 := rfl
@[simp] theorem withFetchWord_ctx (s : State) (n w : Nat) : (s.withFetchWord n w).ctx = s.ctx := rfl
@[simp] theorem withFetchWord_mem (s : State) (n w : Nat) : (s.withFetchWord n w).mem = s.mem := rfl
@[simp] theorem withFetchWord_rst (s : State) (n w : Nat) : (s.withFetchWord n w).rst = false := rfl
@[simp] theorem withFetchWord_regRdata (s : State) (n w : Nat) : (s.withFetchWord n w).regRdata = s.regRdata := rfl
@[simp] theorem withFetchWord_memRdata (s : State) (n w : Nat) : (s.withFetchWord n w).memRdata = s.memRdata := rfl
@[simp] theorem withFetchWord_host (s : State) (n w : Nat) : (s.withFetchWord n w).host = s.host := rfl
@[simp] theorem withFetchWord_latency (s : State) (n w : Nat) : (s.withFetchWord n w).latency = 0 := rfl
@[simp] theorem withFetchWord_disturbed (s : State) (n w : Nat) : (s.withFetchWord n w).disturbed = false := rfl
@[simp] theorem withFetchWord_freeCtr (s : State) (n w : Nat) : (s.withFetchWord n w).freeCtr = s.freeCtr + 1 := rfl

@[simp] theorem reset_mem : State.reset.mem = [] := rfl
@[simp] theorem reset_ctx : State.reset.ctx = Ctx.reset := rfl
@[simp] theorem reset_cfg : State.reset.cfg = Params.default := rfl

/-- A disturbed command differs only in memory, the context and the free-value counter. -/
@[simp] theorem disturb_of_not (i : Instr) (s t : State) (h : s.disturbed = false) : disturb i s t = t := by
  simp [disturb, h]

@[simp] theorem disturb_cfg (i : Instr) (s t : State) : (disturb i s t).cfg = t.cfg := by
  unfold disturb; split <;> rfl
@[simp] theorem disturb_cmd (i : Instr) (s t : State) : (disturb i s t).cmd = t.cmd := by
  unfold disturb; split <;> rfl
@[simp] theorem disturb_status (i : Instr) (s t : State) : (disturb i s t).status = t.status := by
  unfold disturb; split <;> rfl
@[simp] theorem disturb_errcode (i : Instr) (s t : State) : (disturb i s t).errcode = t.errcode := by
  unfold disturb; split <;> rfl
@[simp] theorem disturb_arg0 (i : Instr) (s t : State) : (disturb i s t).arg0 = t.arg0 := by
  unfold disturb; split <;> rfl
@[simp] theorem disturb_arg1 (i : Instr) (s t : State) : (disturb i s t).arg1 = t.arg1 := by
  unfold disturb; split <;> rfl
@[simp] theorem disturb_arg2 (i : Instr) (s t : State) : (disturb i s t).arg2 = t.arg2 := by
  unfold disturb; split <;> rfl
@[simp] theorem disturb_arg3 (i : Instr) (s t : State) : (disturb i s t).arg3 = t.arg3 := by
  unfold disturb; split <;> rfl
@[simp] theorem disturb_rst (i : Instr) (s t : State) : (disturb i s t).rst = t.rst := by
  unfold disturb; split <;> rfl
@[simp] theorem disturb_regRdata (i : Instr) (s t : State) : (disturb i s t).regRdata = t.regRdata := by
  unfold disturb; split <;> rfl
@[simp] theorem disturb_memRdata (i : Instr) (s t : State) : (disturb i s t).memRdata = t.memRdata := by
  unfold disturb; split <;> rfl
@[simp] theorem disturb_host (i : Instr) (s t : State) : (disturb i s t).host = t.host := by
  unfold disturb; split <;> rfl
@[simp] theorem disturb_latency (i : Instr) (s t : State) : (disturb i s t).latency = t.latency := by
  unfold disturb; split <;> rfl
@[simp] theorem disturb_disturbed (i : Instr) (s t : State) : (disturb i s t).disturbed = t.disturbed := by
  unfold disturb; split <;> rfl

end Sys2Proof.Machine
end

