-- ==== Sys2Proof/WellFormed.lean ====
section
/-! DEFINITION. The legal field values of a command word (spec 30_encoding.md R94, R95, R97, R98). A command
with an illegal field still decodes; it completes with ROUNDS or PARAM (R101). The bound `2^REXP ≤ R_MAX`
depends on a parameter of the block and is checked where the command runs. -/

namespace Sys2Proof

/-- A round count is legal when it is even and nonzero (R94). -/
def legalRounds (rounds : BitVec 8) : Bool :=
  rounds != 0 && rounds.toNat % 2 == 0

/-- OUTLEN is legal from 1 to 32 (R95). -/
def legalOutlen (outlen : BitVec 6) : Bool :=
  1 ≤ outlen.toNat && outlen.toNat ≤ 32

/-- KEYLEN is legal from 0 to 32 (R95). -/
def legalKeylen (keylen : BitVec 6) : Bool :=
  keylen.toNat ≤ 32

/-- NEXP is legal from 1 to 31, so N runs from 2 to 2^31 (R98). -/
def legalNexp (nexp : BitVec 5) : Bool :=
  nexp != 0

/-- Every field of the command has a legal value. -/
def Instr.wellFormed : Instr → Bool
  | .nop => true
  | .copy => true
  | .erase => true
  | .xor => true
  | .swap => true
  | .salsa rounds => legalRounds rounds
  | .chacha rounds => legalRounds rounds
  | .b2sInit keylen outlen => legalOutlen outlen && legalKeylen keylen
  | .b2sUpdate => true
  | .b2sFinal => true
  | .b2sCompress => true
  | .b2sHash keylen outlen => legalOutlen outlen && legalKeylen keylen
  | .fastkdf _ _ => true
  | .blkmix _ _ rounds => legalRounds rounds
  | .smix nexp _ _ rounds => legalRounds rounds && legalNexp nexp

end Sys2Proof
end

