-- ==== Sys2Proof/Laws/Commands.lean ====
section
/-! SUPPORT. What the shared operations of the commands can do, said once. -/

namespace Sys2Proof.Machine

/-- The first failing check of a list, from its head. -/
@[simp] theorem firstError_nil : firstError [] = none := rfl

@[simp] theorem firstError_cons (c : Check) (cs : List Check) :
    firstError (c :: cs) = if c.fails then some c.code else firstError cs := by
  cases h : c.fails <;> simp [firstError, List.find?, h]

/-- A command whose checks all pass has its effect and completes. -/
theorem runCommand_passes (i : Instr) (f : State → State) (s : State)
    (h : firstError (checksOf i s) = none) : runCommand i f s = .next (complete (disturb i s (f s))) := by
  simp [runCommand, h]

/-- A command with a failing check raises its error. -/
theorem runCommand_raises (i : Instr) (f : State → State) (s : State) (c : ErrorCode)
    (h : firstError (checksOf i s) = some c) : runCommand i f s = .next (raiseError c s) := by
  simp [runCommand, h]

/-- Everything a command can do. -/
theorem runCommand_cases (i : Instr) (f : State → State) (s t : State) (h : runCommand i f s = .next t) :
    (∃ c, firstError (checksOf i s) = some c ∧ t = raiseError c s) ∨
      (firstError (checksOf i s) = none ∧ t = complete (disturb i s (f s))) := by
  unfold runCommand at h
  split at h <;> cases h
  · exact .inl ⟨_, by assumption, rfl⟩
  · exact .inr ⟨by assumption, rfl⟩

/-- What each command does once its checks have passed. -/
def effectOf : Instr → State → State
  | .nop => fun s => s
  | .copy => copyEffect
  | .erase => eraseEffect
  | .xor => xorEffect
  | .swap => swapEffect
  | .salsa rounds => permuteBlock .salsa rounds
  | .chacha rounds => permuteBlock .chacha rounds
  | .b2sInit keylen outlen => b2sInitEffect keylen outlen
  | .b2sUpdate => b2sUpdateEffect
  | .b2sFinal => b2sFinalEffect
  | .b2sCompress => b2sCompressEffect
  | .b2sHash keylen outlen => b2sHashEffect keylen outlen
  | .fastkdf olenm1 slenm1 => fastkdfEffect olenm1 slenm1
  | .blkmix rexp c rounds => blkmixEffect rexp c rounds
  | .smix nexp rexp c rounds => smixEffect nexp rexp c rounds

/-- Every command is its effect in the frame all commands run in. -/
theorem exec_eq (i : Instr) (s : State) : exec i s = runCommand i (effectOf i) s := by
  cases i <;> rfl

/-- An effect writes memory and the context alone. -/
theorem effectOf_frame (i : Instr) (s : State) :
    ∃ m c, effectOf i s = { s with mem := m, ctx := c } := by
  cases i <;> exact ⟨_, _, by
    simp only [effectOf, copyEffect, eraseEffect, xorEffect, swapEffect, permuteBlock, b2sInitEffect,
      b2sUpdateEffect, b2sFinalEffect, b2sCompressEffect, b2sHashEffect, fastkdfEffect, blkmixEffect, smixEffect]
    rfl⟩

@[simp] theorem effectOf_cfg (i : Instr) (s : State) : (effectOf i s).cfg = s.cfg := by
  obtain ⟨_, _, h⟩ := effectOf_frame i s; rw [h]
@[simp] theorem effectOf_cmd (i : Instr) (s : State) : (effectOf i s).cmd = s.cmd := by
  obtain ⟨_, _, h⟩ := effectOf_frame i s; rw [h]
@[simp] theorem effectOf_status (i : Instr) (s : State) : (effectOf i s).status = s.status := by
  obtain ⟨_, _, h⟩ := effectOf_frame i s; rw [h]
@[simp] theorem effectOf_errcode (i : Instr) (s : State) : (effectOf i s).errcode = s.errcode := by
  obtain ⟨_, _, h⟩ := effectOf_frame i s; rw [h]
@[simp] theorem effectOf_arg0 (i : Instr) (s : State) : (effectOf i s).arg0 = s.arg0 := by
  obtain ⟨_, _, h⟩ := effectOf_frame i s; rw [h]
@[simp] theorem effectOf_arg1 (i : Instr) (s : State) : (effectOf i s).arg1 = s.arg1 := by
  obtain ⟨_, _, h⟩ := effectOf_frame i s; rw [h]
@[simp] theorem effectOf_arg2 (i : Instr) (s : State) : (effectOf i s).arg2 = s.arg2 := by
  obtain ⟨_, _, h⟩ := effectOf_frame i s; rw [h]
@[simp] theorem effectOf_arg3 (i : Instr) (s : State) : (effectOf i s).arg3 = s.arg3 := by
  obtain ⟨_, _, h⟩ := effectOf_frame i s; rw [h]
@[simp] theorem effectOf_rst (i : Instr) (s : State) : (effectOf i s).rst = s.rst := by
  obtain ⟨_, _, h⟩ := effectOf_frame i s; rw [h]
@[simp] theorem effectOf_regRdata (i : Instr) (s : State) : (effectOf i s).regRdata = s.regRdata := by
  obtain ⟨_, _, h⟩ := effectOf_frame i s; rw [h]
@[simp] theorem effectOf_memRdata (i : Instr) (s : State) : (effectOf i s).memRdata = s.memRdata := by
  obtain ⟨_, _, h⟩ := effectOf_frame i s; rw [h]
@[simp] theorem effectOf_host (i : Instr) (s : State) : (effectOf i s).host = s.host := by
  obtain ⟨_, _, h⟩ := effectOf_frame i s; rw [h]
@[simp] theorem effectOf_latency (i : Instr) (s : State) : (effectOf i s).latency = s.latency := by
  obtain ⟨_, _, h⟩ := effectOf_frame i s; rw [h]
@[simp] theorem effectOf_disturbed (i : Instr) (s : State) : (effectOf i s).disturbed = s.disturbed := by
  obtain ⟨_, _, h⟩ := effectOf_frame i s; rw [h]
@[simp] theorem effectOf_freeCtr (i : Instr) (s : State) : (effectOf i s).freeCtr = s.freeCtr := by
  obtain ⟨_, _, h⟩ := effectOf_frame i s; rw [h]

/-- Every effect keeps the canonical form of memory. -/
theorem effectOf_wf (i : Instr) (s : State) (h : s.mem.wf) : (effectOf i s).mem.wf := by
  cases i <;> simp only [effectOf, copyEffect, eraseEffect, xorEffect, swapEffect, permuteBlock, b2sInitEffect,
    b2sUpdateEffect, b2sFinalEffect, b2sCompressEffect, b2sHashEffect, fastkdfEffect, blkmixEffect, smixEffect]
  case nop => exact h
  case b2sInit => exact h
  case b2sUpdate => exact h
  case b2sCompress => exact h
  case copy => exact copyLoop_wf _ _ _ _ h
  case erase => exact eraseLoop_wf _ _ _ h
  case xor => exact xorLoop_wf _ _ _ _ h
  case swap => exact swapLoop_wf _ _ _ _ h
  case smix => apply wf_writeBytes; rw [smixRun_mem]; exact smixFill_wf _ _ _ _ _ _ h
  all_goals exact wf_writeBytes _ _ _ h

/-- Everything exec can do. -/
theorem exec_cases (i : Instr) (s t : State) (h : exec i s = .next t) :
    (∃ c, firstError (checksOf i s) = some c ∧ t = raiseError c s) ∨
      (firstError (checksOf i s) = none ∧ t = complete (disturb i s (effectOf i s))) :=
  runCommand_cases i (effectOf i) s t (exec_eq i s ▸ h)

/-- Everything a step can do: the core runs a command, or rejects a word, or the host moves. -/
theorem step_cases (s : State) :
    (∃ i, coreTurn s = true ∧ decode s.cmd = .ok i ∧ step s = exec i s) ∨
      (∃ e, coreTurn s = true ∧ decode s.cmd = .error e ∧
        step s = .next (raiseError (decodeErrorCode e) s)) ∨
      (coreTurn s = false ∧ step s = hostTurn s) := by
  unfold step
  by_cases h : coreTurn s
  · cases hd : decode s.cmd with
    | ok i => exact .inl ⟨i, h, rfl, by simp [h]⟩
    | error e => exact .inr (.inl ⟨e, h, rfl, by simp [h]⟩)
  · exact .inr (.inr ⟨by simpa using h, by simp [h]⟩)

/-- The field checks of the commands are the well-formedness of their fields: a command with an illegal field fails a
check with ROUNDS or PARAM, whatever the state (R101). -/
theorem illFormed_fails (i : Instr) (s : State) (h : i.wellFormed = false) :
    ∃ k ∈ checksOf i s, k.fails = true ∧ (k.code = .rounds ∨ k.code = .param) := by
  cases i <;>
    simp only [Instr.wellFormed, legalRounds, legalOutlen, legalKeylen, legalNexp, Bool.and_eq_false_iff, bne_eq_false_iff_eq,
      beq_eq_false_iff_ne, decide_eq_false_iff_not, reduceCtorEq] at h <;>
    simp [checksOf, checkRounds, checkLengths, checkNexp, checkR, checkAlign, checkRange, checkAlloc, checkOverlap] <;>
    grind

/-- A register the host writes while idle takes the write; while BUSY the write only sets LOST. -/
theorem writeIdle_cases (f : State → State) (s : State) :
    (s.status.busy = false ∧ writeIdle f s = f s) ∨ (s.status.busy = true ∧ writeIdle f s = loseWrite s) := by
  cases h : s.status.busy <;> simp [writeIdle, h]

/-- A register read changes the port's read data and the free-value counter only. -/
theorem readReg_frame (r : Reg) (s : State) :
    ∃ v n, readReg r s = { s with regRdata := v, freeCtr := n } := by
  unfold readReg
  split
  · exact ⟨_, s.freeCtr, rfl⟩
  · split
    · exact ⟨_, _, rfl⟩
    · exact ⟨_, s.freeCtr, rfl⟩

/-- A host read of buffer memory changes the byte it returned and the free-value counter only. -/
theorem hostMemRead_frame (a : Word) (s : State) :
    ∃ v n, hostMemRead a s = { s with memRdata := v, freeCtr := n } := by
  unfold hostMemRead
  split
  · exact ⟨_, _, rfl⟩
  · exact ⟨_, s.freeCtr, rfl⟩

/-- ERR is bit 2 of STATUS as the host reads it. -/
@[simp] theorem status_word_err (f : Status) : f.word[2] = f.err := by
  obtain ⟨busy, done, err, anyerr, lost⟩ := f
  cases busy <;> cases done <;> cases err <;> cases anyerr <;> cases lost <;> decide

/-- Reading the outcome of a command reads two registers, and drops the host's moves when the ERR it read is 1. -/
theorem readOutcome_eq (s : State) :
    readOutcome s =
      { readReg .errcode (readReg .status s) with
        host := if s.rst = false ∧ s.status.err then [] else s.host } := by
  cases hr : s.rst <;> cases he : s.status.err <;>
    simp [readOutcome, readReg, regValue, Reg.ofContext, hr, he]

/-- A host write of buffer memory keeps the canonical form, stored or lost. -/
theorem hostMemWrite_wf (a : Word) (v : Byte) (s : State) (h : s.mem.wf) : (hostMemWrite a v s).mem.wf := by
  rw [hostMemWrite_mem]
  split
  · exact h
  · exact wf_write _ _ _ h

@[simp] theorem length_wordBytes (w : Word) : (wordBytes w).length = 4 := rfl

@[simp] theorem length_leBytes (ws : List Word) : (leBytes ws).length = 4 * ws.length := by
  induction ws with
  | nil => rfl
  | cons w ws ih => simp [leBytes] at ih ⊢; omega

@[simp] theorem length_bytesOfBlock (x : Block) : (bytesOfBlock x).length = 64 := by
  simp [bytesOfBlock]

@[simp] theorem length_bytesOfChain (x : Chain) : (bytesOfChain x).length = 64 * x.length := by
  induction x with
  | nil => rfl
  | cons b x ih => simp [bytesOfChain] at ih ⊢; omega

@[simp] theorem length_deinterleave (r : Nat) (y : Chain) : (deinterleave r y).length = 2 * r := by
  simp [deinterleave]; omega

@[simp] theorem length_blockMix (c : Cipher) (rounds r : Nat) (x : Chain) :
    (blockMix c rounds r x).length = 2 * r := by simp [blockMix]

@[simp] theorem length_readChain (m : Memory) (a r : Nat) : (readChain m a r).length = 2 * r := by
  simp [readChain]

@[simp] theorem length_digest (c : Ctx) : (digest c).length = min c.outlen.toNat 32 := by
  simp [digest]

@[simp] theorem length_fastKdf (p s : List Byte) (slen olen : Nat) : (fastKdf p s slen olen).length = olen := by
  simp [fastKdf, kdfOutput]

end Sys2Proof.Machine
end

