-- ==== Sys2Proof/Laws/PerInstr.lean ====
section
/-! SUPPORT. Statements made of every command, one lemma for each constructor. -/

namespace Sys2Proof.Laws.EncodeRow

/-- The fixed bits of a command's row and their value (spec 30_encoding.md R99): mask and match of its pattern. -/
def row : Instr → Word × Word
  | .nop => (0xFFFFFFFF, 0x00)
  | .copy => (0xFFFFFFFF, 0x01)
  | .erase => (0xFFFFFFFF, 0x02)
  | .xor => (0xFFFFFFFF, 0x03)
  | .swap => (0xFFFFFFFF, 0x04)
  | .salsa _ => (0xFFFF00FF, 0x08)
  | .chacha _ => (0xFFFF00FF, 0x09)
  | .b2sInit _ _ => (0xFFC0C0FF, 0x10)
  | .b2sUpdate => (0xFFFFFFFF, 0x11)
  | .b2sFinal => (0xFFFFFFFF, 0x12)
  | .b2sCompress => (0xFFFFFFFF, 0x13)
  | .b2sHash _ _ => (0xFFC0C0FF, 0x14)
  | .fastkdf _ _ => (0xFF0000FF, 0x18)
  | .blkmix _ _ _ => (0xFFF000FF, 0x20)
  | .smix _ _ _ _ => (0xFE0000FF, 0x21)

/-- The encoding of a command has its row's value in its row's fixed bits, whatever its fields. -/
def Statement (i : Instr) : Prop := encode i &&& (row i).1 = (row i).2

/-- Two words agree when their bits do. -/
theorem mask_eq {x y : Word} (h : ∀ i < 32, x.getLsbD i = y.getLsbD i) : x = y :=
  BitVec.eq_of_getLsbD_eq h

theorem nop : Statement .nop  := by unfold Statement; decide
theorem copy : Statement .copy  := by unfold Statement; decide
theorem erase : Statement .erase  := by unfold Statement; decide
theorem xor : Statement .xor  := by unfold Statement; decide
theorem swap : Statement .swap  := by unfold Statement; decide
theorem salsa (rounds : BitVec 8) : Statement (.salsa rounds) := by
  refine mask_eq fun i hi => ?_
  simp only [encode, row, BitVec.getLsbD_and]
  interval_cases i <;> simp only [BitVec.getLsbD_append] <;> simp
theorem chacha (rounds : BitVec 8) : Statement (.chacha rounds) := by
  refine mask_eq fun i hi => ?_
  simp only [encode, row, BitVec.getLsbD_and]
  interval_cases i <;> simp only [BitVec.getLsbD_append] <;> simp
theorem b2sInit (keylen outlen : BitVec 6) : Statement (.b2sInit keylen outlen) := by
  refine mask_eq fun i hi => ?_
  simp only [encode, row, BitVec.getLsbD_and]
  interval_cases i <;> simp only [BitVec.getLsbD_append] <;> simp
theorem b2sUpdate : Statement .b2sUpdate  := by unfold Statement; decide
theorem b2sFinal : Statement .b2sFinal  := by unfold Statement; decide
theorem b2sCompress : Statement .b2sCompress  := by unfold Statement; decide
theorem b2sHash (keylen outlen : BitVec 6) : Statement (.b2sHash keylen outlen) := by
  refine mask_eq fun i hi => ?_
  simp only [encode, row, BitVec.getLsbD_and]
  interval_cases i <;> simp only [BitVec.getLsbD_append] <;> simp
theorem fastkdf (olenm1 slenm1 : BitVec 8) : Statement (.fastkdf olenm1 slenm1) := by
  refine mask_eq fun i hi => ?_
  simp only [encode, row, BitVec.getLsbD_and]
  interval_cases i <;> simp only [BitVec.getLsbD_append] <;> simp
theorem blkmix (rexp : BitVec 3) (cipher : Cipher) (rounds : BitVec 8) :
    Statement (.blkmix rexp cipher rounds) := by
  refine mask_eq fun i hi => ?_
  simp only [encode, row, BitVec.getLsbD_and]
  interval_cases i <;> simp only [BitVec.getLsbD_append] <;> simp
theorem smix (nexp : BitVec 5) (rexp : BitVec 3) (cipher : Cipher) (rounds : BitVec 8) :
    Statement (.smix nexp rexp cipher rounds) := by
  refine mask_eq fun i hi => ?_
  simp only [encode, row, BitVec.getLsbD_and]
  interval_cases i <;> simp only [BitVec.getLsbD_append] <;> simp

end Sys2Proof.Laws.EncodeRow
end

