-- ==== Sys2Proof/Tests/Slice0.lean ====
section
/-! SUPPORT. Tests whose expected values come from the spec: the field checks, the encodings written out bit by bit,
one step of each command (spec 95_test_vectors.md), and for every statement with hypotheses a state that meets them. -/

namespace Sys2Proof.Tests

open Sys2Proof Sys2Proof.Machine

/-! ### Well-formedness: each check refuses an ill-formed command (R94, R95, R98) -/

theorem test_wellFormed_refuses_rounds_zero : (Instr.salsa 0).wellFormed = false := by decide
theorem test_wellFormed_refuses_rounds_odd : (Instr.chacha 3).wellFormed = false := by decide
theorem test_wellFormed_refuses_outlen_zero : (Instr.b2sInit 0 0).wellFormed = false := by decide
theorem test_wellFormed_refuses_outlen_33 : (Instr.b2sHash 0 33).wellFormed = false := by decide
theorem test_wellFormed_refuses_keylen_33 : (Instr.b2sInit 33 32).wellFormed = false := by decide
theorem test_wellFormed_refuses_blkmix_rounds : (Instr.blkmix 0 .salsa 255).wellFormed = false := by decide
theorem test_wellFormed_refuses_nexp_zero : (Instr.smix 0 1 .salsa 20).wellFormed = false := by decide
theorem test_wellFormed_accepts_limits :
    (Instr.salsa 254).wellFormed ∧ (Instr.b2sHash 32 32).wellFormed ∧ (Instr.b2sInit 0 1).wellFormed ∧
      (Instr.smix 31 7 .chacha 2).wellFormed := by decide

/-! ### Decoding: one word of each command, written bit by bit from the formats of R92 and the patterns of R99 -/

theorem test_decode_nop : decodeTableWord 32 0b00000000000000000000000000000000 = some .nop := by decide
theorem test_decode_copy : decodeTableWord 32 0b00000000000000000000000000000001 = some .copy := by decide
theorem test_decode_erase : decodeTableWord 32 0b00000000000000000000000000000010 = some .erase := by decide
theorem test_decode_xor : decodeTableWord 32 0b00000000000000000000000000000011 = some .xor := by decide
theorem test_decode_swap : decodeTableWord 32 0b00000000000000000000000000000100 = some .swap := by decide
theorem test_decode_salsa :
    decodeTableWord 32 0b00000000000000000001010000001000 = some (.salsa 20) := by decide
theorem test_decode_chacha :
    decodeTableWord 32 0b00000000000000001111111000001001 = some (.chacha 254) := by decide
theorem test_decode_b2sInit :
    decodeTableWord 32 0b00000000001000000001000000010000 = some (.b2sInit 32 16) := by decide
theorem test_decode_b2sUpdate :
    decodeTableWord 32 0b00000000000000000000000000010001 = some .b2sUpdate := by decide
theorem test_decode_b2sFinal :
    decodeTableWord 32 0b00000000000000000000000000010010 = some .b2sFinal := by decide
theorem test_decode_b2sCompress :
    decodeTableWord 32 0b00000000000000000000000000010011 = some .b2sCompress := by decide
theorem test_decode_b2sHash :
    decodeTableWord 32 0b00000000000001010010000000010100 = some (.b2sHash 5 32) := by decide
theorem test_decode_fastkdf :
    decodeTableWord 32 0b00000000111111110100111100011000 = some (.fastkdf 255 79) := by decide
theorem test_decode_blkmix :
    decodeTableWord 32 0b00000000000010110000100000100000 = some (.blkmix 5 .chacha 8) := by decide
theorem test_decode_smix :
    decodeTableWord 32 0b00000000101000100000100000100001 = some (.smix 10 1 .salsa 8) := by decide

/-- The name a decoder refuses a word by. -/
def refusal (w : Word) : Option DecodeError :=
  match decode w with
  | .ok _ => none
  | .error e => some e

/-- The first and last OPC of each gap of the map (R100, vector C3). -/
theorem test_decode_refuses_unmapped :
    ([0x05, 0x07, 0x0A, 0x0F, 0x15, 0x17, 0x19, 0x1F, 0x22, 0xFF] : List Word).all
      fun w => refusal w == some .illegalOpcode := by decide

/-- The lowest reserved bit of each format, and both ends of H's gap (R92; vectors U19, S15, B24, K9, M7, X10). -/
theorem test_decode_refuses_reserved :
    ([0x00000101, 0x00000100, 0x00010808, 0x00004010, 0x00008010, 0x00402010, 0x01FF4F18, 0x00100820, 0x02100821,
        0x80000000] : List Word).all fun w => refusal w == some .reservedField := by decide

/-- An unmapped OPC with high bits set is reported as such, before any reserved bit (R282). -/
theorem test_decode_opcode_before_reserved : refusal 0xFFFFFF05 = some .illegalOpcode := by decide

/-! ### One step of each command -/

/-- The memory of the vectors: `00..3f` at 0x100 (95_test_vectors.md section 2). -/
def bytes64 : Memory := (List.range 63).map fun k => (0x101 + k, BitVec.ofNat 8 (k + 1))

/-- An idle block with 64 KiB of memory (95_test_vectors.md section 2). -/
def idle : State := { State.resetWith { Params.default with memSize := 0x10000 } with mem := bytes64 }

/-- The block with a word accepted and its operands. -/
def running (w a0 a1 a2 a3 : Word) : State :=
  { idle with
    cmd := w
    arg0 := a0
    arg1 := a1
    arg2 := a2
    arg3 := a3
    status := { idle.status with busy := true } }

/-- The state after one step, or the same state if the machine stops. -/
def after (s : State) : State :=
  match step s with
  | .next t => t
  | .fault _ => s
  | .refused _ => s

/-- STATUS and ERRCODE after one step. -/
def report (s : State) : Word × Word := (regValue .status (after s), regValue .errcode (after s))

/-- Vector C1: DONE alone. -/
theorem test_nop_completes : report (running 0 0 0 0 0) = (0x2, 0) := by decide
/-- Vector C2: DONE, ERR, ANYERR and code 2. -/
theorem test_nop_reserved_bit : report (running 0x00000100 0 0 0 0) = (0xE, 2) := by decide

/-- Vector U3: a destination 4 above the source repeats the first four bytes. -/
theorem test_copy_propagates :
    (after (running 1 0x104 0x100 0 32)).mem.readBytes 0x11E 8 = [2, 3, 0, 1, 2, 3, 0x24, 0x25] := by
  decide +kernel
/-- Vector U18: LENGTH comes before ALIGN. -/
theorem test_copy_length_first : report (running 1 0x201 0x100 0 16) = (0xE, 6) := by decide

/-- Vector U6. -/
theorem test_erase : (after (running 2 0x100 0 0 32)).mem.readBytes 0x11E 4 = [0, 0, 0x20, 0x21] := by
  decide +kernel
/-- Vector U9: the region may end exactly at `MEM_SIZE`, and not beyond. -/
theorem test_erase_end_of_memory :
    report (running 2 0xFFE0 0 0 32) = (0x2, 0) ∧ report (running 2 0xFFE0 0 0 64) = (0xE, 8) := by
  decide +kernel

/-- Vector U11: the source byte is the one the loop has already changed. -/
theorem test_xor_overlap :
    (after (running 3 0x104 0x100 0 32)).mem.readBytes 0x100 16 =
      [0, 1, 2, 3, 4, 4, 4, 4, 0xC, 0xD, 0xE, 0xF, 0, 0, 0, 0] := by decide +kernel
/-- Vector U17's cause for XOR: a misaligned source. -/
theorem test_xor_misaligned : report (running 3 0x200 0x102 0 32) = (0xE, 7) := by decide

/-- Vector U14. -/
theorem test_swap_overlap :
    (after (running 4 0x100 0x104 0 32)).mem.readBytes 0x11C 9 =
      [0x20, 0x21, 0x22, 0x23, 0, 1, 2, 3, 0x24] := by decide +kernel
/-- Vector U13. -/
theorem test_swap_separate :
    let m := (after (running 4 0x100 0x120 0 32)).mem
    m.readBytes 0x100 2 = [0x20, 0x21] ∧ m.readBytes 0x13E 2 = [0x1E, 0x1F] := by decide +kernel

/-- The words `x[k] = k` of section 2.2. -/
def wordsI : Block := Vector.ofFn fun k => BitVec.ofNat 32 k.val

/-- A state whose block at 0x100 holds `wordsI`. -/
def runningWords (w : Word) : State :=
  { running w 0x100 0 0 0 with mem := Memory.writeBytes [] 0x100 (bytesOfBlock wordsI) }

/-- Vector S1: the first and last words. -/
theorem test_salsa_two_rounds :
    let x := blockOfBytes ((after (runningWords 0x00000208)).mem.readBytes 0x100 64)
    x[0] = 0x5ff84399 ∧ x[1] = 0xe8e8dc92 ∧ x[15] = 0xd7f6854e := by decide +kernel
/-- Vector S12. -/
theorem test_salsa_rounds_zero : report (runningWords 0x00000008) = (0xE, 3) := by decide +kernel

/-- Vector S7: the first and last words. -/
theorem test_chacha_two_rounds :
    let x := blockOfBytes ((after (runningWords 0x00000209)).mem.readBytes 0x100 64)
    x[0] = 0xa9295c6a ∧ x[1] = 0xb471be7b ∧ x[15] = 0x983c4ece := by decide +kernel
/-- Example E1, the quarter-round of RFC 7539 as section 1.2 gives it. -/
theorem test_chacha_quarter :
    let x := chachaQuarter (((((Vector.replicate 16 0).set 0 0x11111111).set 1 0x01020304).set 2 0x9b8d6f43).set 3
      0x01234567) 0 1 2 3
    x[0] = 0xea2a92f4 ∧ x[1] = 0xcb1cf8ce ∧ x[2] = 0x4581472e ∧ x[3] = 0x5881c4bb := by decide +kernel

/-- Vector B1. -/
theorem test_b2sInit_unkeyed :
    let t := after (running 0x00002010 0 0 0 0)
    regValue (.h 0) t = 0x6b08e647 ∧ regValue (.h 7) t = 0x5be0cd19 ∧ regValue .b2scfg t = 0x01000020 := by
  decide +kernel
/-- Vector B12: the key block is buffered, not compressed. -/
theorem test_b2sInit_keyed :
    let t := after (running 0x00202010 0 0x100 0 0)
    regValue (.h 0) t = 0x6b08c647 ∧ regValue .b2scfg t = 0x01402020 ∧ regValue .t0 t = 0 := by decide +kernel

/-- The open context of vector B1, with the three bytes of "abc" in BUF for vector B2. -/
def open32 : Ctx := ctxFresh 32 0

/-- Vector B2's counts: three bytes are buffered. -/
theorem test_b2sUpdate_buffers :
    regValue .b2scfg (after { running 0x00000011 0 0x100 0 3 with ctx := open32 }) = 0x01030020 := by
  decide +kernel
/-- Vector B11: the sixty-fifth byte compresses the block before it. -/
theorem test_b2sUpdate_compresses :
    let t := after { running 0x00000011 0 0x200 0 65 with ctx := open32 }
    regValue (.h 0) t = 0x76f2efc5 ∧ regValue (.h 7) t = 0x74410f1a ∧ regValue .t0 t = 64 ∧
      regValue .b2scfg t = 0x01010020 := by decide +kernel

/-- Vector B3: the digest of "abc". -/
theorem test_b2sFinal_abc :
    let t := after { running 0x00000012 0x400 0 0 0 with ctx := ctxUpdate open32 [0x61, 0x62, 0x63] }
    t.mem.readBytes 0x400 4 = [0x50, 0x8c, 0x5e, 0x8c] ∧ t.mem.readBytes 0x41E 3 = [0x59, 0x82, 0] ∧
      regValue .t0 t = 3 ∧ regValue .f0 t = 0xFFFFFFFF ∧ regValue .b2scfg t = 0x00030020 := by decide +kernel
/-- Vector B20. -/
theorem test_b2sFinal_closed : report (running 0x00000012 0x400 0 0 0) = (0xE, 5) := by decide

/-- Vector B14. -/
theorem test_b2sCompress :
    let t := after { running 0x00000013 0 0x100 0 0 with ctx := open32 }
    regValue (.h 0) t = 0x2a1c46dd ∧ regValue (.h 7) t = 0x1d59ac4e ∧ regValue .b2scfg t = 0x01000020 := by
  decide +kernel
/-- Vector B26. -/
theorem test_b2sCompress_range : report (running 0x00000013 0 0xFFF0 0 0) = (0xE, 8) := by decide

/-- Vector B4: no key, the empty message, at an address B18 allows; the first digest bytes. -/
theorem test_b2sHash_empty :
    (after (running 0x00002014 0x400 0 0xFFFFFFFF 0)).mem.readBytes 0x400 4 = [0x69, 0x21, 0x7a, 0x30] := by
  decide +kernel
/-- Vectors B21 and B22. -/
theorem test_b2sHash_outlen :
    report (running 0x00000014 0 0 0 0) = (0xE, 4) ∧ report (running 0x00002114 0 0 0 0) = (0xE, 4) := by decide

/-- Vectors B17 and K1: the PRF of zeros, and bufptr = 128 after iteration 0. -/
theorem test_fastkdf_first_iteration :
    let out := prf (List.replicate 32 0) (List.replicate 64 0)
    out.take 4 = [0xec, 0x4f, 0xe5, 0x4a] ∧ out.drop 28 = [0xec, 0x02, 0xe8, 0x16] ∧ byteSum out = 128 := by
  decide +kernel
/-- Vector K10. -/
theorem test_fastkdf_range : report (running 0x00FF4F18 0xFF80 0x100 0x100 0) = (0xE, 8) := by decide

/-- A state with `00..7f` at 0x100 (section 2.5). -/
def runningChain (w a1 : Word) : State :=
  { running w 0x100 a1 0 0 with
    mem := (List.range 127).map fun k => (0x101 + k, BitVec.ofNat 8 (k + 1)) }

/-- Vector M2: the first four and last four bytes. -/
theorem test_blkmix :
    let m := (after (runningChain 0x00000820 0)).mem
    m.readBytes 0x100 4 = [0x6c, 0xb2, 0x21, 0x5a] ∧ m.readBytes 0x17C 5 = [0x8f, 0xed, 0xdc, 0x0e, 0] := by
  decide +kernel
/-- Vector M8: r = 4 in a block with `R_MAX` = 2. -/
theorem test_blkmix_r_max :
    report { running 0x00040820 0x100 0 0 0 with cfg := { idle.cfg with rMax := 2 } } = (0xE, 4) := by decide

/-- Vector X1: the first bytes of X. -/
theorem test_smix :
    (after (runningChain 0x00100821 0x1000)).mem.readBytes 0x100 4 = [0x99, 0x08, 0x19, 0x4c] := by
  decide +kernel
/-- Vectors X6 and X11. -/
theorem test_smix_errors :
    report (running 0x00100821 0x100 0x100 0 0) = (0xE, 10) ∧
      report (running 0x00000321 0x102 0x1000 0 0) = (0xE, 3) := by decide

/-- Vector C3 in a step. -/
theorem test_illegal_opcode_step : report (running 0x00000015 0 0 0 0) = (0xE, 1) := by decide

/-- Vectors C4 to C7: the profile decode of R261. -/
theorem test_profile_decode :
    [0x00000000, 0x80000720, 0x80000820, 0x00000001, 0x80000101].map (decodeProfile Params.default) =
      [some { n := 128, r := 2, mixing := .dual 20 20 }, some { n := 128, r := 2, mixing := .dual 20 20 },
        some { n := 256, r := 2, mixing := .dual 20 20 }, some { n := 1024, r := 1, mixing := .single 8 },
        some { n := 2, r := 1, mixing := .single 8 }] := by decide
/-- R263 and R267: buffers apart from each other and from the password, the output over X, and Z, which single mode does
not use, over X; then V over X, the password over X, and the output over the password, each by one byte. -/
theorem test_placement_separate :
    let f : Profile := { n := 2, r := 1, mixing := .single 8 }
    let at_ : Placement := { pw := 0, x := 0x80, z := 0x80, v := 0x100, o := 0x80 }
    at_.separate f = true ∧ { at_ with v := 0xFF }.separate f = false ∧ { at_ with pw := 0x31 }.separate f = false ∧
      { at_ with o := 0x50 }.separate f = true ∧ { at_ with o := 0x4F }.separate f = false ∧
      at_.separate { f with mixing := .dual 20 20 } = false := by decide

/-- R251: a memory write while BUSY is lost, and LOST is not its flag (R27); one while idle is stored. -/
theorem test_host_memory_write :
    let busy := after { running 0 0 0 0 0 with host := [.memWr 0x100 7], latency := 1 }
    busy.mem.read 0x100 = 0 ∧ busy.status.lost = false ∧
      (after { idle with host := [.memWr 0x100 7] }).mem.read 0x100 = 7 := by decide +kernel

/-- R251 step 6: the last register read is ERRCODE, and an error drops the moves that follow. -/
theorem test_read_outcome :
    let failed := { raiseError .length idle with host := [.abortOnErr, .wr 4 1] }
    (after failed).regRdata = 6 ∧ (after failed).host = [] ∧
      (after { idle with host := [.abortOnErr, .wr 4 1] }).host = [.wr 4 1] := by decide +kernel

/-- Vectors C8 to C11. -/
theorem test_profile_refused :
    [0x80000020, 0x00000002, 0x00002000, 0x80000740].map (decodeProfile Params.default) =
      [none, none, none, none] := by decide

/-! ### A state that meets the hypotheses of each statement that has some

Each theorem is named after its statement and meets its hypotheses together at concrete values: one conjunct or one
list element for each clause, at the ends of the clause's range. -/

theorem test_witness_EncodeOfDecodeIsTheWord :
    decode 0x00001408 = .ok (.salsa 20) ∧ decode 0x00A00821 = .ok (.smix 10 0 .salsa 8) := ⟨rfl, rfl⟩

theorem test_witness_UnmappedOpcodesRaiseIllegalOpcode :
    ∀ s ∈ [0x05, 0x07, 0x0A, 0x0F, 0x15, 0x17, 0x19, 0x1F, 0x22, 0xFF, 0x04, 0x21].map (running · 0 0 0 0),
      coreTurn s = true ∧ s.flagsAgree ∧ step s = .next (after s) := by
  intro s h
  simp only [List.map_cons, List.map_nil, List.mem_cons, List.not_mem_nil, or_false] at h
  rcases h with rfl | rfl | rfl | rfl | rfl | rfl | rfl | rfl | rfl | rfl | rfl | rfl <;>
    exact ⟨by decide, by decide, rfl⟩

theorem test_witness_ReservedBitsRaiseReservedField :
    ∀ s ∈ [0x00000100, 0x80000013, 0x00010008, 0x80000009, 0x00400010, 0x80000010, 0x00004014, 0x00008014,
        0x01000018, 0x80000018, 0x00100020, 0x80000020, 0x02000021, 0x80000021].map (running · 0 0 0 0),
      coreTurn s = true ∧
      (opcodeField s.cmd ∈ [0x00, 0x01, 0x02, 0x03, 0x04, 0x11, 0x12, 0x13] ∧ s.cmd.extractLsb' 8 24 ≠ 0 ∨
        opcodeField s.cmd ∈ [0x08, 0x09] ∧ s.cmd.extractLsb' 16 16 ≠ 0 ∨
        opcodeField s.cmd ∈ [0x10, 0x14] ∧ (s.cmd.extractLsb' 22 10 ≠ 0 ∨ s.cmd.extractLsb' 14 2 ≠ 0) ∨
        opcodeField s.cmd = 0x18 ∧ s.cmd.extractLsb' 24 8 ≠ 0 ∨
        opcodeField s.cmd = 0x20 ∧ s.cmd.extractLsb' 20 12 ≠ 0 ∨
        opcodeField s.cmd = 0x21 ∧ s.cmd.extractLsb' 25 7 ≠ 0) := by decide

theorem test_witness_StepRunsTheDecodedCommand :
    coreTurn (running 0x00001408 0 0 0 0) = true ∧ decode (running 0x00001408 0 0 0 0).cmd = .ok (.salsa 20) :=
  ⟨by decide, rfl⟩

theorem test_witness_AcceptedWordRunsNext :
    (∀ rest ∈ [[], [HostAction.wait], [.wait, .rd 1]],
      let s := { idle with host := .wr 0 (encode .erase) :: rest }
      s.rst = false ∧ s.status.busy = false ∧ s.host = .wr 0 (encode .erase) :: rest ∧ hostYields rest = true) ∧
    (let s := { idle with host := [.wr 0 0xFFFFFFFF, .wr 4 1] }
     s.rst = false ∧ s.status.busy = false ∧ s.host = .wr 0 0xFFFFFFFF :: [.wr 4 1]) := by
  decide

theorem test_witness_ReadsAndReadOnlyWritesHaveNoEffect :
    ∀ offset ∈ [2#6, 3, 20, 63], offset = 2 ∨ offset = 3 ∨ 20 ≤ offset.toNat := by decide

theorem test_witness_BusyWritesOnlySetLost :
    (running 0 0 0 0 0).rst = false ∧ (running 0 0 0 0 0).status.busy = true ∧
      ∀ offset ∈ [0#6, 4, 19], offset = 0 ∨ 4 ≤ offset.toNat ∧ offset.toNat ≤ 19 := by decide

theorem test_witness_ReadsGiveTheRegisterValues :
    (let s := running 0x00001408 0x100 1 2 3
     s.rst = false ∧ s.flagsAgree ∧ s.status.busy = true) ∧
      (∀ c ∈ [Ctx.reset, { open32 with buflen := 128 }],
        { idle with ctx := c }.rst = false ∧ idle.status.busy = false ∧ { idle with ctx := c }.ctx.buflen ≤ 128) ∧
      ∀ offset ∈ [3#6, 21, 63], offset = 3 ∨ 21 ≤ offset.toNat := by decide

theorem test_witness_StatusWriteClearsOnlyStickyBits : idle.rst = false := rfl

theorem test_witness_IdleRegisterWriteReadsBack :
    idle.rst = false ∧ idle.status.busy = false ∧
      (∀ offset ∈ [4#6, 19], 4 ≤ offset.toNat ∧ offset.toNat ≤ 19) ∧ (17 : BitVec 6) ≠ 16 := by decide

theorem test_witness_ResetGivesTheResetValues : State.reset ∈ [State.reset, assertReset idle] := by simp

theorem test_witness_ResetKeepsMemory :
    (running 0x00000001 0x200 0x100 0 64).mem.wf ∧
      (∀ a ∈ [0x1FF, 0x240], inRegions (runningWriteSet (running 0x00000001 0x200 0x100 0 64)) a = false) ∧
      inRegions (runningWriteSet (running 0x00000001 0x200 0x100 0 64)) 0x200 = true ∧
      idle.status.busy = false := by decide

theorem test_witness_ResetBlocksTheRegisterPort : { idle with rst := true }.rst = true := rfl

/-- One state for each host move, an idle and a BUSY memory write among them, and both cases of a memory read. -/
theorem test_witness_HostMovesAndMemoryAccesses :
    (∀ a ∈ [HostAction.wr 4 1, .rd 8, .memWr 0xFFFF 1, .memRd 0xFFFF, .wait, .abortOnErr, .rst true, .rst false],
      coreTurn { idle with host := [a] } = false) ∧
      coreTurn { running 0 0 0 0 0 with host := [.memWr 0xFFFF 1], latency := 1 } = false ∧
      (0xFFFF#32).toNat < idle.cfg.memSize ∧ idle.mem.wf ∧ idle.status.busy = false ∧
      (running 0x00000001 0x200 0x100 0 64).status.busy = true ∧
      inRegions (runningWriteSet (running 0x00000001 0x200 0x100 0 64)) (0x240#32).toNat = false := by decide

theorem test_witness_HostAccessOutsideMemoryStops :
    (∀ s ∈ [{ idle with host := [.memWr 0x10000 1] }, { idle with host := [.memRd 0x10000] }],
      coreTurn s = false ∧ s.cfg.memSize ≤ (0x10000#32).toNat ∧
        (s.host = [.memWr 0x10000 1] ∨ s.host = [.memRd 0x10000])) := by decide

theorem test_witness_IdleCoreDoesNothing : idle.status.busy = false ∧ idle.host = [] := by decide

theorem test_witness_DutifulHostDisturbsNoCommand :
    ∀ s ∈ [running 0 0 0 0 0, { running 0 0 0 0 0 with host := [.wr 1 0x10], latency := 1 },
        { running 0 0 0 0 0 with host := [.rd 8], latency := 1 }, { idle with host := [.memWr 0 1] }],
      s.quiet ∧ keepsDuty s = true ∧ step s = .next (after s) :=
  fun s h => by
    simp only [List.mem_cons, List.not_mem_nil, or_false] at h
    rcases h with rfl | rfl | rfl | rfl <;> exact ⟨by decide, by decide, rfl⟩

/-- A state for each event: completion without and with an error, each kind of register write, a read, and reset. -/
theorem test_witness_StatusChangesOnlyAsListed :
    ∀ s ∈ [running 0 0 0 0 0, running 0x00000001 0 0 0 16, running 0x00000005 0 0 0 0,
        { idle with host := [.wr 1 0x18] }, { idle with host := [.wr 0 0] }, { idle with host := [.wr 19 0] },
        { running 0 0 0 0 0 with host := [.wr 19 0], latency := 1 },
        { idle with rst := true, host := [.wr 0 0] }, { idle with host := [.rd 1] },
        { idle with host := [.rst true] }],
      step s = .next (after s) := by
  intro s h
  simp only [List.mem_cons, List.not_mem_nil, or_false] at h
  rcases h with rfl | rfl | rfl | rfl | rfl | rfl | rfl | rfl | rfl | rfl <;> rfl

theorem test_witness_ErrorCompletionChangesOnlyFlagsAndCode :
    firstError (checksOf .copy (running 0x00000001 0 0 0 16)) = some .length ∧
      coreTurn (running 0x00000005 0 0 0 0) = true ∧ refusal 0x00000005 = some .illegalOpcode ∧
      coreTurn (running 0x00000101 0 0 0 0) = true ∧ refusal 0x00000101 = some .reservedField := by decide

theorem test_witness_LowestFailingCodeIsReported :
    (∃ t, exec .copy (running 0x00000001 1 0 0 16) = .next t) ∧
      ∃ k ∈ checksOf .copy (running 0x00000001 1 0 0 16), k.fails = true :=
  ⟨⟨_, rfl⟩, checkLength (running 0x00000001 1 0 0 16), by decide, by decide⟩

theorem test_witness_UtilityErrors :
    (running 0 0 0 0 31).arg3.toNat % 32 ≠ 0 ∧
      (let s := running 0 1 0 0 32
       s.arg3.toNat % 32 = 0 ∧ ¬wordAligned s.arg0) ∧
      (let s := running 0 0 2 0 0
       s.arg3.toNat % 32 = 0 ∧ ¬(wordAligned s.arg0 ∧ wordAligned s.arg1)) ∧
      (let s := running 0 0xFFE4 0 0 32
       s.arg3.toNat % 32 = 0 ∧ wordAligned s.arg0 ∧ wordAligned s.arg1 ∧ ¬s.fits s.arg0 s.arg3.toNat) ∧
      (let s := running 0 0 0xFFFFFFE0 0 64
       s.arg3.toNat % 32 = 0 ∧ wordAligned s.arg0 ∧ wordAligned s.arg1 ∧ ¬s.fits s.arg1 s.arg3.toNat) := by
  decide

theorem test_witness_PermutationErrors :
    ¬evenRounds 0 ∧ ¬evenRounds 255 ∧
      (evenRounds 2 ∧ ¬wordAligned (running 0 0x102 0 0 0).arg0) ∧
      (let s := running 0 0xFFC4 0 0 0
       evenRounds 254 ∧ wordAligned s.arg0 ∧ ¬s.fits s.arg0 64) := by decide

theorem test_witness_Blake2sErrors :
    ¬legalDigest 0 0 ∧ ¬legalDigest 0 33 ∧ ¬legalDigest 33 32 ∧
      (legalDigest 32 1 ∧ ¬(running 0 0 0xFFE1 0 0).fits 0xFFE1 (32#6).toNat) ∧
      (legalDigest 0 32 ∧ ¬(running 0 0xFFE1 0 0 0).fits 0xFFE1 (32#6).toNat) ∧
      (legalDigest 0 32 ∧ ¬(running 0 0 0 0xFFFF 2).fits 0xFFFF 2) ∧
      (running 0 0 0 0 0).ctx.valid = false ∧
      (let s := { running 0 0 0xFFFF 0 2 with ctx := open32 }
       s.ctx.valid = true ∧ ¬s.fits s.arg1 s.arg3.toNat) ∧
      (let s := { running 0 0xFFE1 0 0 0 with ctx := open32 }
       s.ctx.valid = true ∧ ¬s.fits s.arg0 s.ctx.outlen.toNat) ∧
      ¬(running 0 0 0xFFC1 0 0).fits 0xFFC1 64 := by decide

theorem test_witness_FastkdfAndMixerErrors :
    ¬(running 0 0xFF01 0 0 0).fits 0xFF01 ((255#8).toNat + 1) ∧ ¬(running 0 0 0xFFB1 0 0).fits 0xFFB1 80 ∧
      ¬(running 0 0 0 0xFFFF 0).fits 0xFFFF ((1#8).toNat + 1) ∧ ¬evenRounds 1 ∧
      (evenRounds 8 ∧ { idle with cfg := { idle.cfg with rMax := 2 } }.cfg.rMax < 2 ^ (2#3).toNat) ∧
      (let s := running 0 0x102 0x1000 0 0
       evenRounds 8 ∧ 2 ^ (7#3).toNat ≤ s.cfg.rMax ∧ ¬wordAligned s.arg0) ∧
      (let s := running 0 0xFF84 0x1000 0 0
       evenRounds 8 ∧ 2 ^ (0#3).toNat ≤ s.cfg.rMax ∧ wordAligned s.arg0 ∧ ¬s.fits s.arg0 (128 * 2 ^ (0#3).toNat)) ∧
      (let s := running 0 0x100 0xFF04 0 0
       (1 : BitVec 5) ≠ 0 ∧ wordAligned s.arg0 ∧ wordAligned s.arg1 ∧ s.fits s.arg0 (128 * 2 ^ (0#3).toNat) ∧
         ¬s.fits s.arg1 (2 ^ (1#5).toNat * (128 * 2 ^ (0#3).toNat))) ∧
      ∀ s ∈ [running 0 0x10FC 0x1000 0 0, running 0 0x1000 0x107C 0 0],
        wordAligned s.arg0 ∧ wordAligned s.arg1 ∧ s.fits s.arg0 (128 * 2 ^ (0#3).toNat) ∧
          s.fits s.arg1 (2 ^ (1#5).toNat * (128 * 2 ^ (0#3).toNat)) ∧
          s.arg0.toNat < s.arg1.toNat + 2 ^ (1#5).toNat * (128 * 2 ^ (0#3).toNat) ∧
          s.arg1.toNat < s.arg0.toNat + 128 * 2 ^ (0#3).toNat := by decide

theorem test_witness_NopOnlyCompletes : (running 0 0 0 0 0).disturbed = false := rfl

/-- Separate operands, operands that overlap either way, equal ones, and no byte at all. -/
theorem test_witness_CopyXorSwapResult :
    ∀ s ∈ [running 0 0x200 0x100 0 64, running 0 0x104 0x100 0 32, running 0 0x100 0x104 0 32,
        running 0 0x100 0x100 0 32, running 0 0xFFFFFFFC 0 0 0, running 0 0xFFE0 0x100 0 32],
      s.quiet ∧ s.arg3.toNat % 32 = 0 ∧ wordAligned s.arg0 ∧ wordAligned s.arg1 ∧ s.fits s.arg0 s.arg3.toNat ∧
        s.fits s.arg1 s.arg3.toNat := by decide

/-- SWAP's three clauses: the same region, regions that touch, regions that overlap. -/
theorem test_witness_SwapResult :
    ∀ p ∈ [(running 0 0x100 0x100 0 32, 0x100, 0), (running 0 0x100 0x120 0 32, 0x100, 32),
        (running 0 0x11C 0x100 0 32, 0x100, 28)],
      p.2.1 = min p.1.arg0.toNat p.1.arg1.toNat ∧ p.2.1 + p.2.2 = max p.1.arg0.toNat p.1.arg1.toNat ∧
        32 = p.1.arg3.toNat := by decide

theorem test_witness_EraseResult :
    ∀ s ∈ [running 0 0x100 0 0 32, running 0 0xFFE0 0 0 32, running 0 0xFFFFFFFC 0 0 0],
      s.quiet ∧ s.arg3.toNat % 32 = 0 ∧ wordAligned s.arg0 ∧ s.fits s.arg0 s.arg3.toNat := by decide

theorem test_witness_PermutationResult :
    ∀ s ∈ [running 0 0x100 0 0 0, running 0 0xFFC0 0 0 0],
      s.quiet ∧ evenRounds 2 ∧ evenRounds 254 ∧ wordAligned s.arg0 ∧ s.fits s.arg0 64 := by decide

/-- No key at an address outside memory, and the longest key at the end of memory. -/
theorem test_witness_B2sInitResult :
    (let s := running 0 0 0xFFFFFFFF 0 0
     s.quiet ∧ legalDigest 0 1 ∧ s.fits s.arg1 (0#6).toNat) ∧
      (let s := running 0 0 0xFFE0 0 0
       s.quiet ∧ legalDigest 32 32 ∧ s.fits s.arg1 (32#6).toNat) := by decide

/-- The input that just fits the buffer, and one byte more. -/
theorem test_witness_B2sUpdateResult :
    (let s := { running 0 0 0x100 0 64 with ctx := open32 }
     s.quiet ∧ s.ctx.valid = true ∧ s.fits s.arg1 s.arg3.toNat ∧ s.ctx.buflen + s.arg3.toNat ≤ 64) ∧
      (let s := { running 0 0 0x100 0 65 with ctx := open32 }
       s.quiet ∧ s.ctx.valid = true ∧ s.fits s.arg1 s.arg3.toNat) := by decide

theorem test_witness_UpdateCountsItsBytes :
    open32.buflen ≤ 64 ∧ { open32 with buflen := 64 }.buflen ≤ 64 ∧ ([0] : List Byte) ≠ [] := by decide

theorem test_witness_B2sFinalResult :
    ∀ c ∈ [ctxFresh 1 0, { ctxFresh 32 32 with buflen := 64 }],
      let s := { running 0 0xFFE0 0 0 0 with ctx := c }
      s.quiet ∧ s.ctx.lengthsLegal ∧ s.ctx.valid = true ∧ s.fits s.arg0 s.ctx.outlen.toNat := by decide

theorem test_witness_B2sCompressResult :
    (running 0 0 0xFFC0 0 0).quiet ∧ (running 0 0 0xFFC0 0 0).fits 0xFFC0 64 := by decide

/-- A digest over its own key and input, and the empty message at an address outside memory. -/
theorem test_witness_B2sHashResult :
    (let s := running 0 0x100 0x100 0x100 64
     s.quiet ∧ legalDigest 32 32 ∧ s.fits s.arg0 (32#6).toNat ∧ s.fits s.arg1 (32#6).toNat ∧
       s.fits s.arg2 s.arg3.toNat) ∧
      (let s := running 0 0xFFFF 0xFFFFFFFF 0xFFFFFFFF 0
       s.quiet ∧ legalDigest 0 1 ∧ s.fits s.arg0 (1#6).toNat ∧ s.fits s.arg1 (0#6).toNat ∧
         s.fits s.arg2 s.arg3.toNat) := by decide

theorem test_witness_FastkdfResult :
    (let s := running 0 0xFF00 0x100 0x100 0
     s.quiet ∧ s.fits s.arg0 ((255#8).toNat + 1) ∧ s.fits s.arg1 80 ∧ s.fits s.arg2 ((79#8).toNat + 1)) ∧
      (let s := running 0 0x101 0xFFB0 0xFFFF 0
       s.quiet ∧ s.fits s.arg0 ((0#8).toNat + 1) ∧ s.fits s.arg1 80 ∧ s.fits s.arg2 ((0#8).toNat + 1)) := by
  decide

theorem test_witness_BlkmixResult :
    ∀ p ∈ [(0#3, 1, 0xFF80#32), (7, 128, 0x100)],
      let s := running 0 p.2.2 0 0 0
      s.quiet ∧ p.2.1 = 2 ^ p.1.toNat ∧ evenRounds 8 ∧ p.2.1 ≤ s.cfg.rMax ∧ wordAligned s.arg0 ∧
        s.fits s.arg0 (128 * p.2.1) := by decide

/-- V after X and touching it, and V before X and touching it. -/
theorem test_witness_SmixResult :
    ∀ p ∈ [(0x100#32, 0x180#32, 1#5, 2), (0x1000, 0, 5, 32)],
      let s := running 0 p.1 p.2.1 0 0
      s.quiet ∧ 1 = 2 ^ (0#3).toNat ∧ p.2.2.2 = 2 ^ p.2.2.1.toNat ∧ evenRounds 8 ∧ 1 ≤ s.cfg.rMax ∧ p.2.2.1 ≠ 0 ∧
        wordAligned s.arg0 ∧ wordAligned s.arg1 ∧ s.fits s.arg0 (128 * 1) ∧ s.fits s.arg1 (p.2.2.2 * (128 * 1)) ∧
        (s.arg1.toNat + p.2.2.2 * (128 * 1) ≤ s.arg0.toNat ∨ s.arg0.toNat + 128 * 1 ≤ s.arg1.toNat) := by decide

theorem test_witness_CommandsWriteOnlyTheirWriteSet :
    (running 0 0 0x100 0 32).mem.wf ∧ (∃ t, exec .copy (running 0 0x200 0x100 0 32) = .next t) ∧
      inRegions (writeSet .copy (running 0 0x200 0x100 0 32)) 0x220 = false ∧
      Instr.nop ∈ [Instr.nop, .b2sUpdate, .b2sCompress] ∧ ∃ k o, Instr.b2sInit 0 32 = .b2sInit k o :=
  ⟨by decide, ⟨_, rfl⟩, by decide, by decide, ⟨_, _, rfl⟩⟩

theorem test_witness_CommandsKeepTheOtherRegisters :
    ∃ t, exec .b2sCompress (running 0x00000013 0 0x100 0 0) = .next t := ⟨_, rfl⟩

/-- Two memories that agree on the source of a COPY and differ elsewhere. -/
theorem test_witness_CommandsDependOnlyOnTheirReadSet :
    let s := running 0x00000001 0x200 0x100 0 64
    let m := s.mem.write 0x300 1
    s.quiet ∧ m.wf ∧ s.ctx.lengthsLegal ∧ readSet .copy s = [⟨0x100, 64⟩] ∧
      (∀ k < 64, m.read (0x100 + k) = s.mem.read (0x100 + k)) ∧ m ≠ s.mem ∧
      firstError (checksOf .copy s) = none ∧ inRegions (writeSet .copy s) 0x200 = true := by decide

theorem test_witness_CoresAreNotInvolutions :
    let s := runningWords 0x00001408
    s.quiet ∧ wordAligned s.arg0 ∧ s.fits s.arg0 64 ∧
      ∀ k : Fin 16, (blockOfBytes (s.mem.readBytes s.arg0.toNat 64))[k] = BitVec.ofNat 32 k.val := by
  decide +kernel

theorem test_witness_UtilityIdentities :
    let s := running 0 0x100 0x120 0 32
    s.quiet ∧ s.arg3.toNat % 32 = 0 ∧ wordAligned s.arg0 ∧ wordAligned s.arg1 ∧ s.fits s.arg0 s.arg3.toNat ∧
      s.fits s.arg1 s.arg3.toNat ∧ s.arg0.toNat + s.arg3.toNat ≤ s.arg1.toNat := by decide

theorem test_witness_IncrementalLaw :
    let s := { running 0 0 0x100 0 1 with ctx := open32 }
    s.quiet ∧ s.ctx.valid = true ∧ s.arg3.toNat + (2#32).toNat < 2 ^ 32 ∧ s.arg1.toNat + s.arg3.toNat < 2 ^ 32 ∧
      s.fits s.arg1 (s.arg3.toNat + (2#32).toNat) := by decide

theorem test_witness_PrfIsTheKeyedHash :
    (List.replicate 32 (0 : Byte)).length = 32 ∧ (List.replicate 64 (0 : Byte)).length = 64 := by decide

theorem test_witness_PrfByRawCompressions :
    let s := { running 0 0 0 0 0 with ctx := { Ctx.reset with h := paramInit 32 32, t := 64 } }
    s.quiet ∧ s.fits 0x400 64 ∧ s.fits 0x100 64 ∧
      s.mem.readBytes (0x400#32).toNat 64 = List.replicate 32 0 ++ List.replicate 32 0 ∧
      s.mem.readBytes (0x100#32).toNat 64 = s.mem.readBytes 0x100 64 ∧ s.ctx.h = paramInit 32 32 ∧ s.ctx.t = 64 ∧
      s.ctx.f0 = 0 ∧ s.ctx.f1 = 0 := by decide +kernel

theorem test_witness_KdfBufferIsARing :
    (1 ≤ 1 ∧ 1 ≤ 256 ∧ ([0xAB] : List Byte).length = 1) ∧ (List.replicate 256 (0 : Byte)).length = 256 :=
  ⟨by decide, List.length_replicate⟩

theorem test_witness_ShorterKdfOutputIsAPrefix : 0 ≤ 256 ∧ 256 ≤ 256 ∧ 32 ≤ 256 := by decide

/-- The invariant holds of a running command, of an idle block and under reset, and each takes a step. -/
theorem test_witness_StepKeepsTheInvariant :
    (running 0x00000000 0 0 0 0).inv ∧ idle.inv ∧ { idle with rst := true }.inv ∧
      (∃ t, step (running 0x00000000 0 0 0 0) = .next t) ∧
      (∃ t, step { idle with host := [.wr 0 0] } = .next t) ∧
      ∃ t, step { idle with rst := true, host := [.rst false] } = .next t :=
  ⟨by decide, by decide, by decide, ⟨_, rfl⟩, ⟨_, rfl⟩, ⟨_, rfl⟩⟩

theorem test_witness_AcceptedProfilesAreInRange :
    decodeProfile Params.default 0x80000101 = some { n := 2, r := 1, mixing := .single 8 } := by decide

/-- Buffers apart, and V over X, for both profiles. -/
theorem test_witness_SequenceCommandWords :
    let at_ : Placement := { pw := 0, x := 0x100, z := 0x200, v := 0x1000, o := 0x80 }
    let dual : Profile := { n := 128, r := 2, mixing := .dual 20 20 }
    let single : Profile := { n := 1024, r := 1, mixing := .single 8 }
    at_.separate dual = true ∧ at_.separate single = true ∧ { at_ with v := 0x100 }.separate dual = false ∧
      { at_ with v := 0x100 }.separate single = false := by decide

end Sys2Proof.Tests
end

/-! The register port: the registers that ignore every write, and the offsets at which they stand (spec 10_state.md
R21, R22). -/

namespace Sys2Proof.Machine

@[simp] theorem writeReg_errcode (v : Word) (s : State) : writeReg .errcode v s = s := ite_self s

@[simp] theorem writeReg_b2scfg (v : Word) (s : State) : writeReg .b2scfg v s = s := ite_self s

@[simp] theorem writeReg_reserved (v : Word) (s : State) : writeReg .reserved v s = s := ite_self s

/-- From offset 20 on the register map holds B2SCFG and reserved offsets only (R21). -/
theorem regAt_of_twenty_le (offset : BitVec 6) (h : 20 ≤ offset.toNat) :
    regAt offset = .b2scfg ∨ regAt offset = .reserved := by
  unfold regAt
  split
  any_goals omega
  · exact .inl rfl
  · exact .inr rfl

/-- Settles O10: a read by the frame of `readReg`, a write by the register that stands at the offset. -/
theorem readsAndReadOnlyWritesHaveNoEffect : Obligations.ReadsAndReadOnlyWritesHaveNoEffect := by
  intro s offset v
  refine ⟨readReg_frame (regAt offset) s, ?_⟩
  rintro (rfl | rfl | hge)
  · exact writeReg_errcode v s
  · exact writeReg_reserved v s
  · obtain hreg | hreg := regAt_of_twenty_le offset hge
    · rw [hreg, writeReg_b2scfg]
    · rw [hreg, writeReg_reserved]

end Sys2Proof.Machine

/-! Command words that select no command (spec 30_encoding.md R100), the codes the checks of a command can raise
(60_exceptions.md R283), and the words of R105. -/

namespace Sys2Proof.Machine

/-- The gaps of the opcode map are the values R100 lists. -/
theorem opcodeMap_eq_none_iff (opc : BitVec 8) :
    opcodeMap opc = none ↔
      opc.toNat ∈ [0x05, 0x06, 0x07, 0x0A, 0x0B, 0x0C, 0x0D, 0x0E, 0x0F, 0x15, 0x16, 0x17, 0x19, 0x1A, 0x1B, 0x1C,
        0x1D, 0x1E, 0x1F] ∨ 0x22 ≤ opc.toNat := by
  unfold opcodeMap
  split
  case h_16 =>
    simp only [List.mem_cons, List.not_mem_nil, or_false, true_iff, imp_false] at *
    omega
  all_goals simp [*]

/-- A word is refused for its opcode exactly when the map has no row for it: the reserved bits are looked at later. -/
theorem decode_eq_illegalOpcode_iff (w : Word) :
    decode w = .error .illegalOpcode ↔ opcodeMap (opcodeField w) = none := by
  unfold decode
  cases opcodeMap (opcodeField w) with
  | none => simp
  | some row => dsimp only; split <;> simp

theorem step_of_decode_error {s : State} {e : DecodeError} (hturn : coreTurn s = true) (hdec : decode s.cmd = .error e) :
    step s = .next (raiseError (decodeErrorCode e) s) := by
  simp [step, hturn, hdec]

theorem decodeErrorCode_eq_illegalOpcode_iff (e : DecodeError) :
    decodeErrorCode e = .illegalOpcode ↔ e = .illegalOpcode := by
  cases e <;> simp [decodeErrorCode]

theorem busy_of_coreTurn {s : State} (h : coreTurn s = true) : s.status.busy = true := by
  simp only [coreTurn, Bool.and_eq_true] at h
  obtain ⟨⟨-, hbusy⟩, -⟩ := h
  exact hbusy

/-- The code of a failing command is that of one of its checks. -/
theorem exists_check_of_firstError {cs : List Check} {c : ErrorCode} (h : firstError cs = some c) :
    ∃ k ∈ cs, k.fails = true ∧ k.code = c := by
  obtain ⟨k, hfind, hcode⟩ := Option.map_eq_some_iff.mp h
  exact ⟨k, List.mem_of_find?_eq_some hfind, List.find?_some hfind, hcode⟩

/-- ILLEGAL_OPCODE belongs to the decoder: no command checks for it. -/
theorem code_ne_illegalOpcode_of_mem_checksOf {i : Instr} {s : State} {k : Check} (hk : k ∈ checksOf i s) :
    k.code ≠ .illegalOpcode := by
  revert k
  cases i <;>
    simp [checksOf, checkRounds, checkLengths, checkR, checkNexp, checkOpen, checkLength, checkAlign, checkRange,
      checkAlloc, checkOverlap]

/-- A command leaves ERRCODE as it was, or sets it to the code of one of its checks. -/
theorem exec_errcode {i : Instr} {s t : State} (h : exec i s = .next t) :
    t.errcode = s.errcode ∨ ∃ k ∈ checksOf i s, t.errcode = k.code := by
  obtain ⟨c, hfirst, rfl⟩ | ⟨-, rfl⟩ := exec_cases i s t h
  · obtain ⟨k, hk, -, rfl⟩ := exists_check_of_firstError hfirst
    exact .inr ⟨k, hk, rfl⟩
  · exact .inl (by simp)

/-- While a command runs from a state whose flags agree, ERRCODE is NONE (R23, R25). -/
theorem errcode_eq_none_of_busy {s : State} (hflags : s.flagsAgree) (hbusy : s.status.busy = true) :
    s.errcode = .none := by
  obtain ⟨hrunning, herr, -⟩ := hflags
  obtain ⟨-, hnoErr⟩ := hrunning hbusy
  by_contra hcode
  simp [herr.mpr hcode] at hnoErr

/-- At the core's turn, only a word with no row in the opcode map raises ILLEGAL_OPCODE. -/
theorem step_errcode_ne_illegalOpcode {s t : State} (hturn : coreTurn s = true)
    (hdec : decode s.cmd ≠ .error .illegalOpcode) (hflags : s.flagsAgree) (h : step s = .next t) :
    t.errcode ≠ .illegalOpcode := by
  obtain ⟨i, -, -, hexec⟩ | ⟨e, -, he, herr⟩ | ⟨hhost, -⟩ := step_cases s
  · obtain hkeep | ⟨k, hk, hcode⟩ := exec_errcode (hexec ▸ h)
    · simp [hkeep, errcode_eq_none_of_busy hflags (busy_of_coreTurn hturn)]
    · exact hcode ▸ code_ne_illegalOpcode_of_mem_checksOf hk
  · cases herr.symm.trans h
    rw [raiseError_errcode, Ne, decodeErrorCode_eq_illegalOpcode_iff]
    rintro rfl
    exact hdec he
  · simp [hturn] at hhost

/-- Settles O3: R100's list is the gaps of the opcode map, and neither a reserved bit nor a check of a command
raises the code of a gap. -/
theorem unmappedOpcodesRaiseIllegalOpcode : Obligations.UnmappedOpcodesRaiseIllegalOpcode := by
  intro s hturn
  have hiff := (decode_eq_illegalOpcode_iff s.cmd).trans (opcodeMap_eq_none_iff (opcodeField s.cmd))
  split
  case isTrue hgap => exact step_of_decode_error hturn (hiff.mpr hgap)
  case isFalse hmapped =>
    have hdec := mt hiff.mp hmapped
    exact ⟨hdec, fun hflags t => step_errcode_ne_illegalOpcode hturn hdec hflags⟩

/-- Settles O5: each of the eleven fixed words is evaluated in both directions. -/
theorem oftenUsedWordsEncodeAndDecode : Obligations.OftenUsedWordsEncodeAndDecode := by
  intro p hp
  have hword : encode p.1 = p.2 ∧ decode p.2 = .ok p.1 := by
    simp only [List.mem_cons, List.not_mem_nil, or_false] at hp
    rcases hp with rfl | rfl | rfl | rfl | rfl | rfl | rfl | rfl | rfl | rfl | rfl <;> exact ⟨rfl, rfl⟩
  obtain ⟨hencode, hdecode⟩ := hword
  exact ⟨hencode, by rw [hdecode]⟩

end Sys2Proof.Machine

/-! The utility loops on separate regions, the run of a utility command whose checks pass, and the identities of spec
40_block_utility.md R125. -/

namespace Sys2Proof.Machine

/-- The loop that COPY and XOR share: byte `i` of the destination becomes `f` of itself and byte `i` of the source. -/
def byteLoop (f : Byte → Byte → Byte) (dst src len : Nat) (m : Memory) : Memory :=
  forLoop len (fun i m => m.write (dst + i) (f (m.read (dst + i)) (m.read (src + i)))) m

theorem copyLoop_eq_byteLoop : copyLoop = byteLoop fun _ y => y := rfl

theorem xorLoop_eq_byteLoop : xorLoop = byteLoop fun x y => x ^^^ y := rfl

theorem byteLoop_wf (f : Byte → Byte → Byte) (dst src len : Nat) (m : Memory) (h : m.wf) :
    (byteLoop f dst src len m).wf :=
  forLoop_keeps Memory.wf len _ m h fun _ _ m hm => wf_write m _ _ hm

/-- A destination that does not run into source bytes still to be read gets `f` of both old bytes. This covers equal
regions, and every overlap with the destination below the source. -/
theorem read_byteLoop (f : Byte → Byte → Byte) {dst src len : Nat} {m : Memory} (h : m.wf)
    (hsrc : dst ≤ src ∨ src + len ≤ dst) (a : Nat) :
    (byteLoop f dst src len m).read a =
      if dst ≤ a ∧ a < dst + len then f (m.read a) (m.read (src + (a - dst))) else m.read a := by
  induction len generalizing a with
  | zero => rw [if_neg (by omega)]; rfl
  | succ n ih =>
    have ih := ih (by omega)
    have hstep : byteLoop f dst src (n + 1) m = (byteLoop f dst src n m).write (dst + n)
        (f ((byteLoop f dst src n m).read (dst + n)) ((byteLoop f dst src n m).read (src + n))) := rfl
    have hdstOld : (byteLoop f dst src n m).read (dst + n) = m.read (dst + n) := by
      rw [ih, if_neg (by omega)]
    have hsrcOld : (byteLoop f dst src n m).read (src + n) = m.read (src + n) := by
      rw [ih, if_neg (by omega)]
    rw [hstep, hdstOld, hsrcOld, read_write _ (byteLoop_wf f dst src n m h), ih]
    by_cases ha : a = dst + n
    · subst ha
      simp
    · simp only [ha, if_false, show a < dst + (n + 1) ↔ a < dst + n by omega]

/-- SWAP of separate regions: each byte of one is the old byte of the other, and every other byte is as before. -/
theorem read_swapLoop_of_separate {a b len : Nat} {m : Memory} (h : m.wf) (hsep : a + len ≤ b ∨ b + len ≤ a)
    (x : Nat) :
    (swapLoop a b len m).read x =
      if a ≤ x ∧ x < a + len then m.read (b + (x - a))
      else if b ≤ x ∧ x < b + len then m.read (a + (x - b)) else m.read x := by
  induction len generalizing x with
  | zero => rw [if_neg (by omega), if_neg (by omega)]; rfl
  | succ n ih =>
    have ih := ih (by omega)
    have hwf := swapLoop_wf a b n m h
    have hstep : swapLoop a b (n + 1) m =
        ((swapLoop a b n m).write (a + n) ((swapLoop a b n m).read (b + n))).write (b + n)
          ((swapLoop a b n m).read (a + n)) := rfl
    have haOld : (swapLoop a b n m).read (a + n) = m.read (a + n) := by
      rw [ih, if_neg (by omega), if_neg (by omega)]
    have hbOld : (swapLoop a b n m).read (b + n) = m.read (b + n) := by
      rw [ih, if_neg (by omega), if_neg (by omega)]
    rw [hstep, haOld, hbOld, read_write _ (wf_write _ _ _ hwf), read_write _ hwf, ih]
    by_cases hxb : x = b + n
    · subst hxb
      rw [if_pos rfl, if_neg (by omega), if_pos (by omega), Nat.add_sub_cancel_left]
    · by_cases hxa : x = a + n
      · subst hxa
        rw [if_neg hxb, if_pos rfl, if_pos (by omega), Nat.add_sub_cancel_left]
      · simp only [hxb, hxa, if_false, show x < a + (n + 1) ↔ x < a + n by omega,
          show x < b + (n + 1) ↔ x < b + n by omega]

/-- XOR of a region with itself zeroes it (R125). -/
theorem read_xorLoop_self {b len k : Nat} {m : Memory} (h : m.wf) (hk : k < len) :
    (xorLoop b b len m).read (b + k) = 0 := by
  rw [xorLoop_eq_byteLoop, read_byteLoop _ h (by omega), if_pos (by omega), Nat.add_sub_cancel_left, BitVec.xor_self]
  rfl

/-- COPY and then XOR of separate regions zero the destination (R125). -/
theorem read_xorLoop_copyLoop {dst src len k : Nat} {m : Memory} (h : m.wf)
    (hsep : dst + len ≤ src ∨ src + len ≤ dst) (hk : k < len) :
    (xorLoop dst src len (copyLoop dst src len m)).read (dst + k) = 0 := by
  have hsrc : dst ≤ src ∨ src + len ≤ dst := by omega
  have hcopied : (copyLoop dst src len m).read (dst + k) = m.read (src + k) := by
    rw [copyLoop_eq_byteLoop, read_byteLoop _ h hsrc, if_pos (by omega), Nat.add_sub_cancel_left]
  have hkept : (copyLoop dst src len m).read (src + k) = m.read (src + k) := by
    rw [copyLoop_eq_byteLoop, read_byteLoop _ h hsrc, if_neg (by omega)]
  rw [xorLoop_eq_byteLoop, read_byteLoop _ (copyLoop_wf _ _ _ _ h) hsrc, if_pos (by omega), Nat.add_sub_cancel_left,
    hcopied, hkept, BitVec.xor_self]
  rfl

/-- SWAP of separate regions is its own inverse (R125). -/
theorem read_swapLoop_swapLoop {a b len : Nat} {m : Memory} (h : m.wf) (hsep : a + len ≤ b ∨ b + len ≤ a) (x : Nat) :
    (swapLoop a b len (swapLoop a b len m)).read x = m.read x := by
  rw [read_swapLoop_of_separate (swapLoop_wf _ _ _ _ h) hsep]
  by_cases hxa : a ≤ x ∧ x < a + len
  · rw [if_pos hxa, read_swapLoop_of_separate h hsep, if_neg (by omega), if_pos (by omega)]
    congr 1
    omega
  · by_cases hxb : b ≤ x ∧ x < b + len
    · rw [if_neg hxa, if_pos hxb, read_swapLoop_of_separate h hsep, if_pos (by omega)]
      congr 1
      omega
    · rw [if_neg hxa, if_neg hxb, read_swapLoop_of_separate h hsep, if_neg hxa, if_neg hxb]

/-- No host write disturbs the command, and the regions at ARG0 and ARG1 pass the checks of COPY, XOR and SWAP
(R120). -/
def State.utilityReady (s : State) : Prop :=
  s.quiet ∧ s.arg3.toNat % 32 = 0 ∧ wordAligned s.arg0 ∧ wordAligned s.arg1 ∧
    s.fits s.arg0 s.arg3.toNat ∧ s.fits s.arg1 s.arg3.toNat

theorem inRange_region_iff (s : State) (a : Word) (n : Nat) : inRange s (region a n) = true ↔ s.fits a n := by
  simp only [inRange, Bool.or_eq_true, beq_iff_eq, decide_eq_true_eq]
  rfl

/-- COPY, XOR and SWAP have the same checks, and operands that pass them raise no error (R120, R283). -/
theorem firstError_of_utilityReady {i : Instr} (hi : i ∈ [Instr.copy, .xor, .swap]) {s : State}
    (hs : s.utilityReady) : firstError (checksOf i s) = none := by
  obtain ⟨-, hlen, halign0, halign1, hfits0, hfits1⟩ := hs
  have hchecks : checksOf i s = checksOf .copy s := by
    simp only [List.mem_cons, List.not_mem_nil, or_false] at hi
    rcases hi with rfl | rfl | rfl <;> rfl
  rw [hchecks]
  simp [checksOf, checkLength, checkAlign, checkRange, hlen, halign0, halign1,
    (inRange_region_iff _ _ _).mpr hfits0, (inRange_region_iff _ _ _).mpr hfits1]

theorem exec_of_utilityReady {i : Instr} (hi : i ∈ [Instr.copy, .xor, .swap]) {s : State} (hs : s.utilityReady) :
    exec i s = .next (complete (effectOf i s)) := by
  have ⟨⟨_, hundisturbed⟩, _⟩ := hs
  rw [exec_eq, runCommand_passes _ _ _ (firstError_of_utilityReady hi hs), disturb_of_not _ _ _ hundisturbed]

/-- No command changes the operands, so the next command on them passes its checks too. -/
theorem utilityReady_complete_effectOf (i : Instr) {s : State} (hs : s.utilityReady) :
    (complete (effectOf i s)).utilityReady := by
  obtain ⟨⟨hwf, hundisturbed⟩, hoperands⟩ := hs
  refine ⟨⟨effectOf_wf i s hwf, by simpa using hundisturbed⟩, ?_⟩
  simpa [State.fits] using hoperands

/-- Two commands on the same operands: the second works on the memory the first left. -/
theorem exec_twice_of_utilityReady {i j : Instr} (hi : i ∈ [Instr.copy, .xor, .swap])
    (hj : j ∈ [Instr.copy, .xor, .swap]) {s : State} (hs : s.utilityReady) :
    ∃ t u, exec i s = .next t ∧ exec j t = .next u ∧ u.mem = (effectOf j (complete (effectOf i s))).mem :=
  ⟨_, _, exec_of_utilityReady hi hs, exec_of_utilityReady hj (utilityReady_complete_effectOf i hs), rfl⟩

/-- SWAP of the 32 bytes at 0 and the 32 bytes at 4, with a 1 in byte 0 alone. -/
def overlappingSwap : State := { State.reset with mem := [(0, 1)], arg1 := 4, arg3 := 32 }

theorem overlappingSwap_utilityReady : overlappingSwap.utilityReady := by
  unfold State.utilityReady
  decide

/-- SWAP carries the 1 from byte 0 to byte 32, and SWAP again to byte 28, so byte 0 is not restored. -/
theorem read_overlappingSwap_twice : (swapLoop 0 4 32 (swapLoop 0 4 32 overlappingSwap.mem)).read 0 = 0 := by
  decide

/-- Settles O50: each identity is one of the loop laws above, run through `exec`; the failure of SWAP twice is
`overlappingSwap`. -/
theorem utilityIdentities : Obligations.UtilityIdentities := by
  refine ⟨fun s hquiet hlen halign0 halign1 hfits0 hfits1 => ?_, ?_⟩
  · have ⟨hwf, _⟩ := hquiet
    have hs : s.utilityReady := ⟨hquiet, hlen, halign0, halign1, hfits0, hfits1⟩
    have hself : { s with arg1 := s.arg0 }.utilityReady := ⟨hquiet, hlen, halign0, halign0, hfits0, hfits0⟩
    refine ⟨⟨_, exec_of_utilityReady (by simp) hself, fun k hk => read_xorLoop_self hwf hk⟩,
      fun hsep => ⟨?_, ?_⟩⟩
    · obtain ⟨t, u, ht, hu, hmem⟩ := exec_twice_of_utilityReady (i := .copy) (j := .xor) (by simp) (by simp) hs
      exact ⟨t, u, ht, hu, fun k hk => hmem ▸ read_xorLoop_copyLoop hwf hsep hk⟩
    · obtain ⟨t, u, ht, hu, hmem⟩ := exec_twice_of_utilityReady (i := .swap) (j := .swap) (by simp) (by simp) hs
      exact ⟨t, u, ht, hu, fun a => hmem ▸ read_swapLoop_swapLoop hwf hsep a⟩
  · have hs := overlappingSwap_utilityReady
    have ⟨hquiet, _⟩ := hs
    obtain ⟨t, u, ht, hu, hmem⟩ := exec_twice_of_utilityReady (i := .swap) (j := .swap) (by simp) (by simp) hs
    have hlost : u.mem.read 0 = 0 := hmem ▸ read_overlappingSwap_twice
    exact ⟨overlappingSwap, t, u, hquiet, firstError_of_utilityReady (by simp) hs, by decide, by decide, ht, hu, 0,
      by rw [hlost]; decide⟩

end Sys2Proof.Machine

/-! The Salsa20 and ChaCha20 cores as commands: a block stored in memory reads back, the run of SALSA or CHACHA whose
checks pass, and the cores applied twice to the words `x[k] = k` (spec 41_stream_cipher_cores.md R146 to R148). -/

namespace Sys2Proof.Machine

@[simp] theorem leBytes_cons (w : Word) (ws : List Word) : leBytes (w :: ws) = wordBytes w ++ leBytes ws := rfl

theorem le32_wordBytes_append (w : Word) (s : List Byte) : le32 (wordBytes w ++ s) 0 = w := by
  simp only [le32, wordBytes, List.cons_append, List.getD_cons_zero, List.getD_cons_succ, zero_add]
  rw [BitVec.extractLsb'_append_extractLsb'_eq_extractLsb' (show 24 = 16 + 8 from rfl),
    BitVec.extractLsb'_append_extractLsb'_eq_extractLsb' (show 16 = 8 + 8 from rfl),
    BitVec.extractLsb'_append_extractLsb'_eq_extractLsb' (show 8 = 0 + 8 from rfl)]
  exact BitVec.extractLsb'_eq_self

theorem le32_append_add_four (w : Word) (s : List Byte) (i : Nat) : le32 (wordBytes w ++ s) (i + 4) = le32 s i := by
  simp [le32, wordBytes, Nat.add_right_comm i 4]

/-- The word at byte `4 * k` of a stored word list is word `k` (R61). -/
theorem le32_leBytes (ws : List Word) (k : Nat) (hk : k < ws.length) : le32 (leBytes ws) (4 * k) = ws[k] := by
  induction ws generalizing k with
  | nil => simp at hk
  | cons w ws ih =>
    cases k with
    | zero => exact le32_wordBytes_append w _
    | succ k =>
      have hk' : k < ws.length := by simpa using hk
      rw [leBytes_cons, Nat.mul_succ, le32_append_add_four, ih k hk', List.getElem_cons_succ]

/-- A block is the words of its bytes (R8, R140). -/
@[simp] theorem blockOfBytes_bytesOfBlock (x : Block) : blockOfBytes (bytesOfBlock x) = x := by
  ext k hk
  simp [blockOfBytes, bytesOfBlock, le32_leBytes]

/-- The block stored at an address (R140). -/
def Memory.blockAt (m : Memory) (a : Word) : Block := blockOfBytes (m.readBytes a.toNat 64)

/-- A block written to memory reads back. -/
theorem blockAt_writeBytes_bytesOfBlock {m : Memory} (h : m.wf) (a : Word) (x : Block) :
    (m.writeBytes a.toNat (bytesOfBlock x)).blockAt a = x := by
  have hread := readBytes_writeBytes m h a.toNat (bytesOfBlock x)
  rw [length_bytesOfBlock] at hread
  rw [Memory.blockAt, hread, blockOfBytes_bytesOfBlock]

/-- The command that runs a core on the block at ARG0. -/
def coreCommand : Cipher → BitVec 8 → Instr
  | .salsa, rounds => .salsa rounds
  | .chacha, rounds => .chacha rounds

theorem effectOf_coreCommand (c : Cipher) (rounds : BitVec 8) :
    effectOf (coreCommand c rounds) = permuteBlock c rounds := by
  cases c <;> rfl

theorem effectOf_coreCommand_mem (c : Cipher) (rounds : BitVec 8) (s : State) :
    (effectOf (coreCommand c rounds) s).mem =
      s.mem.writeBytes s.arg0.toNat (bytesOfBlock (cipherCore c rounds.toNat (s.mem.blockAt s.arg0))) := by
  rw [effectOf_coreCommand, permuteBlock, Memory.blockAt]

@[simp] theorem checksOf_coreCommand (c : Cipher) (rounds : BitVec 8) (s : State) :
    checksOf (coreCommand c rounds) s =
      [checkRounds rounds, checkAlign [s.arg0], checkRange s [region s.arg0 64]] := by
  cases c <;> rfl

/-- No host write disturbs the command, and the block at ARG0 passes the checks of SALSA and CHACHA (R146, R147). -/
def State.coreReady (s : State) : Prop := s.quiet ∧ wordAligned s.arg0 ∧ s.fits s.arg0 64

theorem firstError_of_coreReady (c : Cipher) {rounds : BitVec 8} (hrounds : evenRounds rounds) {s : State}
    (hs : s.coreReady) : firstError (checksOf (coreCommand c rounds) s) = none := by
  obtain ⟨-, halign, hfits⟩ := hs
  obtain ⟨hnonzero, heven⟩ := hrounds
  have hroundsPass : (checkRounds rounds).fails = false := by simpa [checkRounds, heven] using hnonzero
  simp [hroundsPass, checkAlign, checkRange, halign, (inRange_region_iff _ _ _).mpr hfits]

theorem exec_of_coreReady (c : Cipher) {rounds : BitVec 8} (hrounds : evenRounds rounds) {s : State}
    (hs : s.coreReady) :
    exec (coreCommand c rounds) s = .next (complete (effectOf (coreCommand c rounds) s)) := by
  have ⟨⟨_, hundisturbed⟩, _⟩ := hs
  rw [exec_eq, runCommand_passes _ _ _ (firstError_of_coreReady c hrounds hs), disturb_of_not _ _ _ hundisturbed]

/-- No command changes what SALSA and CHACHA check, so a core can run on the same block again. -/
theorem coreReady_complete_effectOf (i : Instr) {s : State} (hs : s.coreReady) :
    (complete (effectOf i s)).coreReady := by
  obtain ⟨⟨hwf, hundisturbed⟩, hoperand⟩ := hs
  refine ⟨⟨effectOf_wf i s hwf, by simpa using hundisturbed⟩, ?_⟩
  simpa [State.fits] using hoperand

/-- The block a core command leaves is the core of the block it found (R146, R147). -/
theorem blockAt_effectOf_coreCommand (c : Cipher) (rounds : BitVec 8) {s : State} (hwf : s.mem.wf) :
    (effectOf (coreCommand c rounds) s).mem.blockAt s.arg0 = cipherCore c rounds.toNat (s.mem.blockAt s.arg0) := by
  rw [effectOf_coreCommand_mem, blockAt_writeBytes_bytesOfBlock hwf]

/-- A core command run twice applies the core twice to the block at ARG0. -/
theorem exec_coreCommand_twice (c : Cipher) {rounds : BitVec 8} (hrounds : evenRounds rounds) {s : State}
    (hs : s.coreReady) :
    ∃ t u, exec (coreCommand c rounds) s = .next t ∧ exec (coreCommand c rounds) t = .next u ∧
      u.mem.blockAt s.arg0 = cipherCore c rounds.toNat (cipherCore c rounds.toNat (s.mem.blockAt s.arg0)) := by
  have ⟨⟨hwf, _⟩, _⟩ := hs
  have hs' := coreReady_complete_effectOf (coreCommand c rounds) hs
  have ⟨⟨hwf', _⟩, _⟩ := hs'
  have hsecond := blockAt_effectOf_coreCommand c rounds hwf'
  rw [complete_arg0, effectOf_arg0, complete_mem, blockAt_effectOf_coreCommand c rounds hwf] at hsecond
  exact ⟨_, _, exec_of_coreReady c hrounds hs, exec_of_coreReady c hrounds hs', by rw [complete_mem, hsecond]⟩

/-- The words `x[k] = k` (R148). -/
def countingBlock : Block := Vector.ofFn fun k => BitVec.ofNat 32 k.val

/-- The 20-round core of `countingBlock`: vectors S3 and S9 of 95_test_vectors.md. -/
def countingBlockCore : Cipher → Block
  | .salsa =>
    #v[0xe1a0ebe0, 0x06032a02, 0x1ec19924, 0x91ffb36e, 0x83068335, 0xa7c06e2c, 0x75b43867, 0xccf8517e,
      0xf61ba820, 0xab1b8972, 0xec9ed7f6, 0x478636b9, 0x745dd6ad, 0x8bbe722d, 0xa1cc9bdf, 0x5fc70cf0]
  | .chacha =>
    #v[0x48e90081, 0xf390518d, 0x224b1424, 0x0e74bdba, 0x888688d6, 0x108e96f9, 0x1de13d88, 0x71bc3e2f,
      0x281ff78e, 0x66900ec6, 0xd3bfbe8c, 0x815f33f9, 0x665aaec0, 0x7485a172, 0x61889cf5, 0x94255e2f]

theorem cipherCore_countingBlock (c : Cipher) : cipherCore c 20 countingBlock = countingBlockCore c := by
  cases c <;> decide +kernel

/-- Word 0 of the core applied once more is 0xaf5cbb13 for Salsa20 and 0x5adc40f8 for ChaCha20. -/
theorem cipherCore_countingBlockCore_zero_ne (c : Cipher) : (cipherCore c 20 (countingBlockCore c))[0] ≠ 0 := by
  cases c <;> decide +kernel

/-- The core applied twice changes word 0 of the words `x[k] = k`, which is 0 (R148). -/
theorem cipherCore_twice_countingBlock_ne (c : Cipher) :
    cipherCore c 20 (cipherCore c 20 countingBlock) ≠ countingBlock := by
  intro hsame
  apply cipherCore_countingBlockCore_zero_ne c
  rw [← cipherCore_countingBlock, hsame]
  rfl

/-- Settles O49: each command twice is its core twice on the block at ARG0, which holds the words `x[k] = k`. -/
theorem coresAreNotInvolutions : Obligations.CoresAreNotInvolutions := by
  intro s hquiet halign hfits hwords i hi
  have hblock : s.mem.blockAt s.arg0 = countingBlock := by
    refine Vector.ext fun k hk => ?_
    rw [countingBlock, Vector.getElem_ofFn]
    exact hwords ⟨k, hk⟩
  obtain ⟨c, rfl⟩ : ∃ c, i = coreCommand c 20 := by
    simp only [List.mem_cons, List.not_mem_nil, or_false] at hi
    obtain rfl | rfl := hi
    · exact ⟨.salsa, rfl⟩
    · exact ⟨.chacha, rfl⟩
  have hs : s.coreReady := ⟨hquiet, halign, hfits⟩
  obtain ⟨t, u, ht, hu, hcore⟩ := exec_coreCommand_twice c (rounds := 20) (by decide) hs
  refine ⟨t, u, ht, hu, ?_⟩
  rw [← Memory.blockAt, ← Memory.blockAt, hcore, hblock]
  exact cipherCore_twice_countingBlock_ne c

end Sys2Proof.Machine

/-! B2S_UPDATE on chunks: appending chunk by chunk is appending their concatenation, the run of an update whose checks
pass, and two updates on adjacent regions (spec 42_blake2s.md R176, R179, R184). -/

namespace Sys2Proof.Machine

theorem ctxUpdate_append (c : Ctx) (xs ys : List Byte) : ctxUpdate c (xs ++ ys) = ctxUpdate (ctxUpdate c xs) ys :=
  List.foldl_append

/-- `CtxUpdate` looks at its data byte by byte, so the bounds of the chunks leave no trace (R179). -/
theorem foldl_ctxUpdate_eq_ctxUpdate_flatten (c : Ctx) (chunks : List (List Byte)) :
    chunks.foldl ctxUpdate c = ctxUpdate c chunks.flatten :=
  List.foldl_flatten.symm

/-- A byte leaves VALID alone, whether it fills the block or not. -/
@[simp] theorem ctxByte_valid (c : Ctx) (b : Byte) : (ctxByte c b).valid = c.valid := by
  unfold ctxByte
  dsimp only
  split <;> rfl

/-- An update leaves the context as open as it found it (R176). -/
@[simp] theorem ctxUpdate_valid (c : Ctx) (data : List Byte) : (ctxUpdate c data).valid = c.valid := by
  induction data generalizing c with
  | nil => rfl
  | cons b data ih => exact (ih (ctxByte c b)).trans (ctxByte_valid c b)

/-- The bytes of two adjacent regions are the bytes of the one region they make. -/
theorem readBytes_add (m : Memory) (a n k : Nat) :
    m.readBytes a (n + k) = m.readBytes a n ++ m.readBytes (a + n) k := by
  simp [Memory.readBytes, List.range_add, Nat.add_assoc]

/-- No host write disturbs the command, and the open context and the region at ARG1 pass the checks of B2S_UPDATE
(R184). -/
def State.updateReady (s : State) : Prop := s.quiet ∧ s.ctx.valid = true ∧ s.fits s.arg1 s.arg3.toNat

theorem firstError_of_updateReady {s : State} (hs : s.updateReady) : firstError (checksOf .b2sUpdate s) = none := by
  obtain ⟨-, hopen, hfits⟩ := hs
  simp [checksOf, checkOpen, checkRange, hopen, (inRange_region_iff _ _ _).mpr hfits]

theorem exec_of_updateReady {s : State} (hs : s.updateReady) :
    exec .b2sUpdate s = .next (complete (b2sUpdateEffect s)) := by
  have ⟨⟨_, hundisturbed⟩, _⟩ := hs
  rw [exec_eq, runCommand_passes _ _ _ (firstError_of_updateReady hs), disturb_of_not _ _ _ hundisturbed, effectOf]

/-- An update changes no byte of memory and keeps the context open, so the next one runs wherever its own region
fits. -/
theorem updateReady_complete_b2sUpdateEffect {s : State} (hs : s.updateReady) {a n : Word} (hfits : s.fits a n.toNat) :
    { complete (b2sUpdateEffect s) with arg1 := a, arg3 := n }.updateReady := by
  obtain ⟨hquiet, hopen, -⟩ := hs
  exact ⟨hquiet, (ctxUpdate_valid _ _).trans hopen, hfits⟩

/-- The context after an update of `len` bytes at `a` and one of the `n` bytes that follow is the context after one
update on both (R179). -/
theorem ctx_b2sUpdateEffect_adjacent (s : State) {a b len n total : Word} (hb : b.toNat = a.toNat + len.toNat)
    (htotal : total.toNat = len.toNat + n.toNat) :
    (b2sUpdateEffect
        { complete (b2sUpdateEffect { s with arg1 := a, arg3 := len }) with arg1 := b, arg3 := n }).ctx =
      (b2sUpdateEffect { s with arg1 := a, arg3 := total }).ctx := by
  have hbytes : s.mem.readBytes a.toNat total.toNat =
      s.mem.readBytes a.toNat len.toNat ++ s.mem.readBytes b.toNat n.toNat := by
    rw [htotal, readBytes_add, hb]
  simp only [b2sUpdateEffect, complete_ctx, complete_mem]
  rw [hbytes, ctxUpdate_append]

/-- Settles O51: the first half is the law of `foldl`; in the second the three commands run, and their regions adjoin. -/
theorem incrementalLaw : Obligations.IncrementalLaw := by
  refine ⟨fun c chunks => ?_, fun s n hquiet hopen hlen haddr hfits => ?_⟩
  · rw [foldl_ctxUpdate_eq_ctxUpdate_flatten]
    exact ⟨rfl, rfl⟩
  · have htotal : (s.arg3 + n).toNat = s.arg3.toNat + n.toNat := BitVec.toNat_add_of_lt hlen
    have hnext : (s.arg1 + s.arg3).toNat = s.arg1.toNat + s.arg3.toNat := BitVec.toNat_add_of_lt haddr
    have hboth : { s with arg3 := s.arg3 + n }.updateReady := ⟨hquiet, hopen, by rwa [htotal]⟩
    have hfirst : s.updateReady := ⟨hquiet, hopen, by omega⟩
    have hsecond := updateReady_complete_b2sUpdateEffect hfirst (a := s.arg1 + s.arg3) (n := n) (by omega)
    exact ⟨_, _, _, exec_of_updateReady hfirst, exec_of_updateReady hsecond, exec_of_updateReady hboth,
      ctx_b2sUpdateEffect_adjacent s hnext htotal⟩

end Sys2Proof.Machine


/-! The FastKDF buffer B as a 256-byte ring: what the three loops of one iteration write, and the repeated head they
keep (spec 43_fastkdf.md R211 to R213). -/

namespace Sys2Proof.Machine

theorem getD_set (b : List Byte) (i a : Nat) (v : Byte) :
    (b.set i v).getD a 0 = if a = i ∧ i < b.length then v else b.getD a 0 := by
  simp only [List.getD_eq_getElem?_getD, List.getElem?_set]
  by_cases ha : a = i
  · subst ha
    by_cases hlen : a < b.length <;> simp [hlen]
  · simp [ha, Ne.symm ha]

/-- The shape of all three loops of an iteration: turn `k` writes slot `dst + k` of the buffer (R212). -/
def fillLoop (f : Nat → List Byte → Byte) (dst n : Nat) (b : List Byte) : List Byte :=
  forLoop n (fun k b => b.set (dst + k) (f k b)) b

@[simp] theorem length_fillLoop (f : Nat → List Byte → Byte) (dst n : Nat) (b : List Byte) :
    (fillLoop f dst n b).length = b.length :=
  forLoop_keeps (·.length = b.length) n _ b rfl fun _ _ _ hlen => List.length_set.trans hlen

/-- A loop leaves the bytes outside its slots as they were. -/
theorem getD_fillLoop_of_outside (f : Nat → List Byte → Byte) {dst n a : Nat} (b : List Byte)
    (ha : a < dst ∨ dst + n ≤ a) : (fillLoop f dst n b).getD a 0 = b.getD a 0 :=
  forLoop_keeps (fun x : List Byte => x.getD a 0 = b.getD a 0) n _ b rfl fun k hk x hx => by
    rw [getD_set, if_neg (by omega), hx]

/-- Step 3's XOR of the output into B at the new offset (R212). -/
def xorOutput (p : Nat) (out : List Byte) : List Byte → List Byte :=
  fillLoop (fun k b => b.getD (p + k) 0 ^^^ out.getD k 0) p 32

/-- `n` bytes copied within the buffer: the form of both mirror steps (R212). -/
def mirror (dst src n : Nat) : List Byte → List Byte :=
  fillLoop (fun k b => b.getD (src + k) 0) dst n

/-- Step 3 is the XOR, the mirror of the head to the tail, and the mirror of the tail to the head (R212). -/
theorem kdfMix_eq (p : Nat) (out b : List Byte) :
    kdfMix p out b = mirror 0 256 (p - 224) (mirror (256 + p) p (32 - p) (xorOutput p out b)) := by
  simp only [kdfMix, mirror, xorOutput, fillLoop, Nat.add_assoc, Nat.zero_add]

@[simp] theorem length_xorOutput (p : Nat) (out b : List Byte) : (xorOutput p out b).length = b.length :=
  length_fillLoop _ _ _ _

@[simp] theorem length_mirror (dst src n : Nat) (b : List Byte) : (mirror dst src n b).length = b.length :=
  length_fillLoop _ _ _ _

theorem getD_xorOutput_of_outside {p a : Nat} (out b : List Byte) (ha : a < p ∨ p + 32 ≤ a) :
    (xorOutput p out b).getD a 0 = b.getD a 0 :=
  getD_fillLoop_of_outside _ b ha

theorem getD_mirror_of_outside {dst n a : Nat} (src : Nat) (b : List Byte) (ha : a < dst ∨ dst + n ≤ a) :
    (mirror dst src n b).getD a 0 = b.getD a 0 :=
  getD_fillLoop_of_outside _ b ha

/-- A mirrored slot holds the byte of its source, when the two ranges are apart. -/
theorem getD_mirror_of_inside {dst src n k : Nat} {b : List Byte} (hsep : dst + n ≤ src ∨ src + n ≤ dst)
    (hlen : dst + n ≤ b.length) (hk : k < n) : (mirror dst src n b).getD (dst + k) 0 = b.getD (src + k) 0 := by
  induction n with
  | zero => omega
  | succ n ih =>
    have hstep : mirror dst src (n + 1) b =
        (mirror dst src n b).set (dst + n) ((mirror dst src n b).getD (src + n) 0) := rfl
    rw [hstep, getD_set, length_mirror]
    by_cases hlast : k = n
    · subst hlast
      rw [if_pos (by omega), getD_mirror_of_outside src b (by omega)]
    · rw [if_neg (by omega), ih (by omega) (by omega) (by omega)]

/-- A buffer of 288 bytes whose last 32 repeat its first 32 (R213). -/
def isRing (b : List Byte) : Prop := b.length = 288 ∧ ∀ k < 32, b.getD (256 + k) 0 = b.getD k 0

/-- Step 3 keeps the ring at every offset. A head byte the XOR reached is mirrored to the tail, a tail byte it reached
is mirrored to the head, and where it reached neither the two agreed before. -/
theorem isRing_kdfMix {p : Nat} (hp : p < 256) (out : List Byte) {b : List Byte} (hb : isRing b) :
    isRing (kdfMix p out b) := by
  obtain ⟨hlen, hring⟩ := hb
  rw [kdfMix_eq]
  generalize hx : xorOutput p out b = x
  generalize hy : mirror (256 + p) p (32 - p) x = y
  have hxlen : x.length = 288 := by rw [← hx, length_xorOutput, hlen]
  have hylen : y.length = 288 := by rw [← hy, length_mirror, hxlen]
  refine ⟨by rw [length_mirror, hylen], fun k hk => ?_⟩
  rw [getD_mirror_of_outside 256 y (a := 256 + k) (by omega)]
  by_cases htail : k < p - 224
  · have hmirrored := getD_mirror_of_inside (dst := 0) (src := 256) (by omega) (by omega) htail (b := y)
    rw [Nat.zero_add] at hmirrored
    exact hmirrored.symm
  · have hhead : y.getD k 0 = x.getD k 0 := by rw [← hy, getD_mirror_of_outside p x (by omega)]
    rw [getD_mirror_of_outside 256 y (by omega), hhead]
    by_cases hreached : p ≤ k
    · obtain ⟨j, rfl⟩ := Nat.exists_eq_add_of_le hreached
      rw [← hy, ← Nat.add_assoc, getD_mirror_of_inside (by omega) (by omega) (by omega)]
    · calc y.getD (256 + k) 0
        _ = x.getD (256 + k) 0 := by rw [← hy, getD_mirror_of_outside p x (by omega)]
        _ = b.getD (256 + k) 0 := by rw [← hx, getD_xorOutput_of_outside out b (by omega)]
        _ = b.getD k 0 := hring k hk
        _ = x.getD k 0 := by rw [← hx, getD_xorOutput_of_outside out b (by omega)]

@[simp] theorem length_repeatTo256 (x : List Byte) (n : Nat) : (repeatTo256 x n).length = 256 := by
  simp [repeatTo256]

theorem getD_window (x : List Byte) (p : Nat) {n k : Nat} (hk : k < n) :
    (window x p n).getD k 0 = x.getD (p + k) 0 := by
  simp [window, hk]

/-- Setup builds a ring, whatever the salt (R211). -/
theorem isRing_kdfBufferB (salt : List Byte) (slen : Nat) : isRing (kdfBufferB salt slen) := by
  refine ⟨by simp [kdfBufferB], fun k hk => ?_⟩
  rw [kdfBufferB, List.getD_append_right _ _ _ _ (by simp), List.getD_append _ _ _ _ (by simp; omega)]
  simp only [length_repeatTo256, Nat.add_sub_cancel_left, List.getD_eq_getElem?_getD, List.getElem?_take_of_lt hk]

theorem byteSum_lt (out : List Byte) : byteSum out < 256 := Nat.mod_lt _ (by decide)

/-- The hidden state between iterations: the offset stands in the ring, and B is one (R212, R213). -/
def KdfLoop.onRing (l : KdfLoop) : Prop := l.bufptr < 256 ∧ isRing l.b

/-- The new offset is a byte sum, and B is mixed at that offset (R212). -/
theorem onRing_kdfIteration (a : List Byte) {l : KdfLoop} (hl : l.onRing) : (kdfIteration a l).onRing := by
  obtain ⟨-, hring⟩ := hl
  simp only [KdfLoop.onRing, kdfIteration]
  exact ⟨byteSum_lt _, isRing_kdfMix (byteSum_lt _) _ hring⟩

theorem onRing_kdfLoop (a : List Byte) {b : List Byte} (hb : isRing b) (n : Nat) : (kdfLoop a b n).onRing :=
  forLoop_keeps KdfLoop.onRing n _ _ ⟨Nat.zero_lt_succ 255, hb⟩ fun _ _ _ hl => onRing_kdfIteration a hl

/-- A 32-byte window that starts in the ring reads it modulo 256 (R213). -/
theorem getD_window_of_isRing {b : List Byte} (hb : isRing b) {p k : Nat} (hp : p < 256) (hk : k < 32) :
    (window b p 32).getD k 0 = b.getD ((p + k) % 256) 0 := by
  obtain ⟨-, hring⟩ := hb
  rw [getD_window b p hk]
  by_cases hwrap : p + k < 256
  · rw [Nat.mod_eq_of_lt hwrap]
  · obtain ⟨j, hj⟩ := Nat.exists_eq_add_of_le (Nat.le_of_not_lt hwrap)
    rw [hj, hring j (by omega), Nat.add_mod_left, Nat.mod_eq_of_lt (by omega)]

/-- Settles O54: setup builds a ring and every iteration keeps it; the windows are read off the ring. -/
theorem kdfBufferIsARing : Obligations.KdfBufferIsARing := by
  intro password salt slen n _ _ _
  obtain ⟨hptr, hring⟩ := onRing_kdfLoop (kdfBufferA password) (isRing_kdfBufferB salt slen) n
  have ⟨hlen, hrepeat⟩ := hring
  exact ⟨hptr, hlen, hrepeat, fun _ hp _ hk => getD_window_of_isRing hring hp hk⟩

end Sys2Proof.Machine

/-! The order of BlockMix's results for small chains (spec 44_blockmix_smix.md R230, R231). -/

namespace Sys2Proof.Machine

@[simp] theorem mixBlocks_nil (c : Cipher) (k : Nat) (prev : Block) : mixBlocks c k prev [] = [] := rfl

@[simp] theorem mixBlocks_cons (c : Cipher) (k : Nat) (prev x : Block) (xs : Chain) :
    mixBlocks c k prev (x :: xs) =
      cipherCore c k (xorBlocks prev x) :: mixBlocks c k (cipherCore c k (xorBlocks prev x)) xs := rfl

/-- The mix starts from the chain's last block (R230). -/
theorem blockMix_of_last {r : Nat} {x : Chain} {last : Block} (hlast : x[2 * r - 1]? = some last) (c : Cipher)
    (k : Nat) : blockMix c k r x = deinterleave r (mixBlocks c k last x) := by
  rw [blockMix, List.getD_eq_getElem?_getD, hlast, Option.getD_some]

theorem deinterleave_one (y0 y1 : Block) : deinterleave 1 [y0, y1] = [y0, y1] := rfl

theorem deinterleave_two (y0 y1 y2 y3 : Block) : deinterleave 2 [y0, y1, y2, y3] = [y0, y2, y1, y3] := rfl

/-- Settles O56: the mix starts from the last block, its Y is read off block by block, and only the order of the
results depends on r. -/
theorem blockMixOrderForSmallR : Obligations.BlockMixOrderForSmallR := by
  intro c k a b d e
  constructor
  · have hlast : [a, b][2 * 1 - 1]? = some b := rfl
    simp only [blockMix_of_last hlast, mixBlocks_cons, mixBlocks_nil, deinterleave_one]
  · have hlast : [a, b, d, e][2 * 2 - 1]? = some e := rfl
    simp only [blockMix_of_last hlast, mixBlocks_cons, mixBlocks_nil, deinterleave_two]

end Sys2Proof.Machine

/-! Error completion (spec 60_exceptions.md R285): both ways into an error, a failing check and a word that selects no
command, end in `raiseError`, and `raiseError` is the completion R285 spells out. -/

namespace Sys2Proof.Machine

/-- R285 as one equation of whole states: of STATUS only LOST is kept, and beside STATUS only ERRCODE is written. -/
theorem raiseError_eq (c : ErrorCode) (s : State) :
    raiseError c s =
      { s with
        status := { busy := false, done := true, err := true, anyerr := true, lost := s.status.lost }
        errcode := c } := rfl

/-- A command with a failing check has no effect of its own: it raises the error of its first failing check. -/
theorem exec_of_firstError_eq_some {i : Instr} {s : State} {c : ErrorCode}
    (hfirst : firstError (checksOf i s) = some c) : exec i s = .next (raiseError c s) :=
  (exec_eq i s).trans (runCommand_raises i (effectOf i) s c hfirst)

/-- Settles O24: a failing check and each of the two decode errors complete by `raiseError`. -/
theorem errorCompletionChangesOnlyFlagsAndCode : Obligations.ErrorCompletionChangesOnlyFlagsAndCode := by
  intro s
  simp only [← raiseError_eq]
  refine ⟨?failingCheck, ?illegalOpcode, ?reservedField⟩
  case failingCheck => exact fun _ _ hfirst => exec_of_firstError_eq_some hfirst
  case illegalOpcode => exact fun hturn hdec => step_of_decode_error hturn hdec
  case reservedField => exact fun hturn hdec => step_of_decode_error hturn hdec

end Sys2Proof.Machine

/-! Command words: the opcode, the reserved bits and the fields of a word, and encoding and decoding as inverses of each
other (spec 30_encoding.md R90 to R101). -/

namespace Sys2Proof.Machine

/-- What decoding to a command says of a word (R90). -/
theorem decode_eq_ok_iff (w : Word) (i : Instr) :
    decode w = .ok i ↔ ∃ f fields, opcodeMap (opcodeField w) = some (f, fields) ∧ w &&& reservedMask f = 0 ∧
      fields w = i := by
  unfold decode
  cases opcodeMap (opcodeField w) with
  | none => simp
  | some row =>
    obtain ⟨f, fields⟩ := row
    dsimp only
    by_cases hreserved : w &&& reservedMask f = 0
    · rw [if_pos hreserved]
      simp [hreserved]
    · rw [if_neg hreserved]
      simp only [Option.some.injEq, Prod.mk.injEq, reduceCtorEq, false_iff, not_exists, not_and]
      rintro _ _ ⟨rfl, -⟩ hzero
      exact absurd hzero hreserved

/-- The bits a format reserves, as fields: the position of the lowest bit, and the width (R92). -/
def reservedFields : Format → List (Nat × Nat)
  | .U => [(8, 24)]
  | .P => [(16, 16)]
  | .H => [(22, 10), (14, 2)]
  | .K => [(24, 8)]
  | .MB => [(20, 12)]
  | .M => [(25, 7)]

theorem getLsbD_reservedMask (f : Format) :
    ∀ j < 32, (reservedMask f).getLsbD j = (reservedFields f).any fun q => q.1 ≤ j && j < q.1 + q.2 := by
  cases f <;> decide

theorem extractLsb'_eq_zero_iff (w : Word) (p k : Nat) :
    w.extractLsb' p k = 0 ↔ ∀ j, p ≤ j → j < p + k → w.getLsbD j = false := by
  constructor
  · intro h j hlo hhi
    have hbit : (w.extractLsb' p k).getLsbD (j - p) = false := by rw [h]; simp
    simpa [show j - p < k by omega, show p + (j - p) = j by omega] using hbit
  · intro h
    refine BitVec.eq_of_getLsbD_eq fun j hj => ?_
    simpa [hj] using h (p + j) (by omega) (by omega)

/-- The mask of a format selects its reserved fields and no other bit. -/
theorem and_reservedMask_eq_zero_iff (w : Word) (f : Format) :
    w &&& reservedMask f = 0 ↔ ∀ q ∈ reservedFields f, w.extractLsb' q.1 q.2 = 0 := by
  have hbits : w &&& reservedMask f = 0 ↔ ∀ j < 32, (reservedMask f).getLsbD j = true → w.getLsbD j = false := by
    constructor
    · intro h j _ hmask
      have hbit : (w &&& reservedMask f).getLsbD j = false := by rw [h]; simp
      simpa [hmask] using hbit
    · intro h
      refine BitVec.eq_of_getLsbD_eq fun j hj => ?_
      have := h j hj
      cases hmask : (reservedMask f).getLsbD j <;> simp_all
  simp only [hbits, extractLsb'_eq_zero_iff]
  constructor
  · intro h q hq j hlo hhi
    by_cases hj : j < 32
    · refine h j hj ?_
      rw [getLsbD_reservedMask f j hj, List.any_eq_true]
      exact ⟨q, hq, by simp [hlo, hhi]⟩
    · exact BitVec.getLsbD_of_ge w j (by omega)
  · intro h j hj hmask
    rw [getLsbD_reservedMask f j hj, List.any_eq_true] at hmask
    obtain ⟨q, hq, hin⟩ := hmask
    simp only [Bool.and_eq_true, decide_eq_true_eq] at hin
    exact h q hq j hin.1 hin.2

/-- CIPHER as a field of one bit (R98). -/
theorem cipherBit_cipherField (w : Word) : cipherBit (cipherField w) = w.extractLsb' 16 1 := by
  refine BitVec.eq_of_getLsbD_eq fun j hj => ?_
  obtain rfl : j = 0 := by omega
  cases hbit : w.getLsbD 16 <;> simp [-BitVec.getLsbD_eq_getElem, cipherField, cipherBit, hbit]

theorem cipherField_eq_of_bit {w : Word} {c : Cipher} (h : w.extractLsb' 16 1 = cipherBit c) : cipherField w = c := by
  rw [← cipherBit_cipherField] at h
  cases c <;> cases hfield : cipherField w <;> simp_all [cipherBit]

/-- The opcode is the low byte of the pattern (R99). -/
theorem opcodeField_encode (i : Instr) : opcodeField (encode i) = (Laws.EncodeRow.row i).2.setWidth 8 := by
  cases i <;> exact BitVec.extractLsb'_append_eq_right

/-- The field above the lowest part of a concatenation of three. -/
theorem extractLsb'_append_field {n k p : Nat} (hi : BitVec n) (f : BitVec k) (lo : BitVec p) :
    (hi ++ f ++ lo).extractLsb' p k = f := by
  rw [BitVec.extractLsb'_append_eq_of_le le_rfl, Nat.sub_self, BitVec.extractLsb'_append_eq_right]

/-- Above the low part of a concatenation stands the high part. -/
theorem extractLsb'_append_skip {n p j k : Nat} (hi : BitVec n) (lo : BitVec p) :
    (hi ++ lo).extractLsb' (j + p) k = hi.extractLsb' j k := by
  rw [BitVec.extractLsb'_append_eq_of_le (Nat.le_add_left p j), Nat.add_sub_cancel]

/-- Each command's encoding has the opcode of a row of the map, its reserved bits 0 and the command in its fields. -/
theorem exists_row_encode (i : Instr) :
    ∃ f fields, opcodeMap (opcodeField (encode i)) = some (f, fields) ∧ encode i &&& reservedMask f = 0 ∧
      fields (encode i) = i := by
  simp only [opcodeField_encode, and_reservedMask_eq_zero_iff]
  cases i
  case nop | copy | erase | xor | swap | b2sUpdate | b2sFinal | b2sCompress =>
    refine ⟨.U, _, rfl, ?_, rfl⟩
    simp only [reservedFields, List.forall_mem_singleton]
    exact BitVec.extractLsb'_append_eq_left
  case salsa rounds | chacha rounds =>
    refine ⟨.P, _, rfl, ?_, congrArg _ (extractLsb'_append_field _ _ _)⟩
    simp only [reservedFields, List.forall_mem_singleton]
    exact (extractLsb'_append_skip _ _).trans BitVec.extractLsb'_append_eq_left
  case b2sInit keylen outlen | b2sHash keylen outlen =>
    refine ⟨.H, _, rfl, ?_, congrArg₂ _ ?_ (extractLsb'_append_field _ _ _)⟩
    · simp only [reservedFields, List.forall_mem_cons, List.not_mem_nil, IsEmpty.forall_iff, implies_true, and_true]
      exact ⟨(extractLsb'_append_skip _ _).trans ((extractLsb'_append_skip _ _).trans
          ((extractLsb'_append_skip _ _).trans BitVec.extractLsb'_append_eq_left)),
        (extractLsb'_append_skip _ _).trans (extractLsb'_append_field _ _ _)⟩
    · exact (extractLsb'_append_skip _ _).trans ((extractLsb'_append_skip _ _).trans
        (extractLsb'_append_field _ _ _))
  case fastkdf olenm1 slenm1 =>
    refine ⟨.K, _, rfl, ?_, congrArg₂ _ ?_ (extractLsb'_append_field _ _ _)⟩
    · simp only [reservedFields, List.forall_mem_singleton]
      exact (extractLsb'_append_skip _ _).trans ((extractLsb'_append_skip _ _).trans
        BitVec.extractLsb'_append_eq_left)
    · exact (extractLsb'_append_skip _ _).trans (extractLsb'_append_field _ _ _)
  case blkmix rexp c rounds =>
    have hrexp : rexpField (encode (.blkmix rexp c rounds)) = rexp :=
      (extractLsb'_append_skip _ _).trans ((extractLsb'_append_skip _ _).trans (extractLsb'_append_field _ _ _))
    have hcipher : cipherField (encode (.blkmix rexp c rounds)) = c :=
      cipherField_eq_of_bit ((extractLsb'_append_skip _ _).trans (extractLsb'_append_field _ _ _))
    have hrounds : roundsField (encode (.blkmix rexp c rounds)) = rounds := extractLsb'_append_field _ _ _
    refine ⟨.MB, _, rfl, ?_, by rw [hrexp, hcipher, hrounds]⟩
    simp only [reservedFields, List.forall_mem_singleton]
    exact (extractLsb'_append_skip _ _).trans ((extractLsb'_append_skip _ _).trans
      ((extractLsb'_append_skip _ _).trans BitVec.extractLsb'_append_eq_left))
  case smix nexp rexp c rounds =>
    have hnexp : nexpField (encode (.smix nexp rexp c rounds)) = nexp :=
      (extractLsb'_append_skip _ _).trans ((extractLsb'_append_skip _ _).trans
        ((extractLsb'_append_skip _ _).trans (extractLsb'_append_field _ _ _)))
    have hrexp : rexpField (encode (.smix nexp rexp c rounds)) = rexp :=
      (extractLsb'_append_skip _ _).trans ((extractLsb'_append_skip _ _).trans (extractLsb'_append_field _ _ _))
    have hcipher : cipherField (encode (.smix nexp rexp c rounds)) = c :=
      cipherField_eq_of_bit ((extractLsb'_append_skip _ _).trans (extractLsb'_append_field _ _ _))
    have hrounds : roundsField (encode (.smix nexp rexp c rounds)) = rounds := extractLsb'_append_field _ _ _
    refine ⟨.M, _, rfl, ?_, by rw [hnexp, hrexp, hcipher, hrounds]⟩
    simp only [reservedFields, List.forall_mem_singleton]
    exact (extractLsb'_append_skip _ _).trans ((extractLsb'_append_skip _ _).trans
      ((extractLsb'_append_skip _ _).trans ((extractLsb'_append_skip _ _).trans BitVec.extractLsb'_append_eq_left)))

/-- Settles O1: the row of the opcode map, the reserved bits and the fields are read off the encoding. -/
theorem decodeOfEncodeIsTheCommand : Obligations.DecodeOfEncodeIsTheCommand :=
  fun i => (decode_eq_ok_iff (encode i) i).mpr (exists_row_encode i)

/-! A word of each format from its opcode, its fields and its reserved bits, when these are 0 (R92). -/

section

variable {w : Word} {opc : BitVec 8} (hopc : w.extractLsb' 0 8 = opc)
include hopc

theorem word_of_formatU (hreserved : w.extractLsb' 8 24 = 0#24) : 0#24 ++ opc = w := by
  rw [← hopc, ← hreserved, BitVec.extractLsb'_append_extractLsb'_eq_extractLsb' (show 8 = 0 + 8 from rfl)]
  exact BitVec.extractLsb'_eq_self

theorem word_of_formatP (hreserved : w.extractLsb' 16 16 = 0#16) : 0#16 ++ roundsField w ++ opc = w := by
  rw [← hopc, ← hreserved, roundsField,
    BitVec.extractLsb'_append_extractLsb'_eq_extractLsb' (show 16 = 8 + 8 from rfl),
    BitVec.extractLsb'_append_extractLsb'_eq_extractLsb' (show 8 = 0 + 8 from rfl)]
  exact BitVec.extractLsb'_eq_self

theorem word_of_formatH (htop : w.extractLsb' 22 10 = 0#10) (hmiddle : w.extractLsb' 14 2 = 0#2) :
    0#10 ++ keylenField w ++ 0#2 ++ outlenField w ++ opc = w := by
  rw [← hopc, ← htop, ← hmiddle, keylenField, outlenField,
    BitVec.extractLsb'_append_extractLsb'_eq_extractLsb' (show 22 = 16 + 6 from rfl),
    BitVec.extractLsb'_append_extractLsb'_eq_extractLsb' (show 16 = 14 + 2 from rfl),
    BitVec.extractLsb'_append_extractLsb'_eq_extractLsb' (show 14 = 8 + 6 from rfl),
    BitVec.extractLsb'_append_extractLsb'_eq_extractLsb' (show 8 = 0 + 8 from rfl)]
  exact BitVec.extractLsb'_eq_self

theorem word_of_formatK (hreserved : w.extractLsb' 24 8 = 0#8) :
    0#8 ++ olenm1Field w ++ slenm1Field w ++ opc = w := by
  rw [← hopc, ← hreserved, olenm1Field, slenm1Field,
    BitVec.extractLsb'_append_extractLsb'_eq_extractLsb' (show 24 = 16 + 8 from rfl),
    BitVec.extractLsb'_append_extractLsb'_eq_extractLsb' (show 16 = 8 + 8 from rfl),
    BitVec.extractLsb'_append_extractLsb'_eq_extractLsb' (show 8 = 0 + 8 from rfl)]
  exact BitVec.extractLsb'_eq_self

theorem word_of_formatMB (hreserved : w.extractLsb' 20 12 = 0#12) :
    0#12 ++ rexpField w ++ cipherBit (cipherField w) ++ roundsField w ++ opc = w := by
  rw [← hopc, ← hreserved, rexpField, cipherBit_cipherField, roundsField,
    BitVec.extractLsb'_append_extractLsb'_eq_extractLsb' (show 20 = 17 + 3 from rfl),
    BitVec.extractLsb'_append_extractLsb'_eq_extractLsb' (show 17 = 16 + 1 from rfl),
    BitVec.extractLsb'_append_extractLsb'_eq_extractLsb' (show 16 = 8 + 8 from rfl),
    BitVec.extractLsb'_append_extractLsb'_eq_extractLsb' (show 8 = 0 + 8 from rfl)]
  exact BitVec.extractLsb'_eq_self

theorem word_of_formatM (hreserved : w.extractLsb' 25 7 = 0#7) :
    0#7 ++ nexpField w ++ rexpField w ++ cipherBit (cipherField w) ++ roundsField w ++ opc = w := by
  rw [← hopc, ← hreserved, nexpField, rexpField, cipherBit_cipherField, roundsField,
    BitVec.extractLsb'_append_extractLsb'_eq_extractLsb' (show 25 = 20 + 5 from rfl),
    BitVec.extractLsb'_append_extractLsb'_eq_extractLsb' (show 20 = 17 + 3 from rfl),
    BitVec.extractLsb'_append_extractLsb'_eq_extractLsb' (show 17 = 16 + 1 from rfl),
    BitVec.extractLsb'_append_extractLsb'_eq_extractLsb' (show 16 = 8 + 8 from rfl),
    BitVec.extractLsb'_append_extractLsb'_eq_extractLsb' (show 8 = 0 + 8 from rfl)]
  exact BitVec.extractLsb'_eq_self

end

/-- A word with a mapped opcode and its reserved bits 0 is put together again by the pattern of its row. -/
theorem encode_fields_of_row {w : Word} {f : Format} {fields : Word → Instr}
    (hrow : opcodeMap (opcodeField w) = some (f, fields)) (hreserved : w &&& reservedMask f = 0) :
    encode (fields w) = w := by
  rw [and_reservedMask_eq_zero_iff] at hreserved
  have hopcode : ∀ n, (opcodeField w).toNat = n → w.extractLsb' 0 8 = BitVec.ofNat 8 n := by
    rintro _ rfl
    rw [BitVec.ofNat_toNat, BitVec.setWidth_eq, opcodeField]
  unfold opcodeMap at hrow
  split at hrow <;> cases hrow <;>
    simp only [reservedFields, List.forall_mem_cons, List.not_mem_nil, IsEmpty.forall_iff, implies_true,
      and_true] at hreserved
  case h_1 h | h_2 h | h_3 h | h_4 h | h_5 h | h_9 h | h_10 h | h_11 h => exact word_of_formatU (hopcode _ h) hreserved
  case h_6 h | h_7 h => exact word_of_formatP (hopcode _ h) hreserved
  case h_8 h | h_12 h =>
    obtain ⟨htop, hmiddle⟩ := hreserved
    exact word_of_formatH (hopcode _ h) htop hmiddle
  case h_13 h => exact word_of_formatK (hopcode _ h) hreserved
  case h_14 h => exact word_of_formatMB (hopcode _ h) hreserved
  case h_15 h => exact word_of_formatM (hopcode _ h) hreserved

/-- Settles O2: a word that decodes has a row whose reserved bits are 0, so its parts put it together again. -/
theorem encodeOfDecodeIsTheWord : Obligations.EncodeOfDecodeIsTheWord := by
  intro w i hdec
  obtain ⟨f, fields, hrow, hreserved, rfl⟩ := (decode_eq_ok_iff w i).mp hdec
  exact encode_fields_of_row hrow hreserved

/-- The opcodes of each format (R99). -/
def formatOpcodes : Format → List (BitVec 8)
  | .U => [0x00, 0x01, 0x02, 0x03, 0x04, 0x11, 0x12, 0x13]
  | .P => [0x08, 0x09]
  | .H => [0x10, 0x14]
  | .K => [0x18]
  | .MB => [0x20]
  | .M => [0x21]

/-- The map has a row of the format for each of them. -/
theorem exists_row_of_mem_formatOpcodes {f : Format} {opc : BitVec 8} (hopc : opc ∈ formatOpcodes f) :
    ∃ fields, opcodeMap opc = some (f, fields) := by
  cases f <;> simp only [formatOpcodes, List.mem_cons, List.not_mem_nil, or_false] at hopc
  case U => rcases hopc with rfl | rfl | rfl | rfl | rfl | rfl | rfl | rfl <;> exact ⟨_, rfl⟩
  case P | H => obtain rfl | rfl := hopc <;> exact ⟨_, rfl⟩
  case K | MB | M => subst hopc; exact ⟨_, rfl⟩

/-- A reserved field that is not 0 makes a word with a mapped opcode be refused (R101). -/
theorem decode_eq_reservedField {w : Word} (f : Format) (q : Nat × Nat) (hopc : opcodeField w ∈ formatOpcodes f)
    (hq : q ∈ reservedFields f) (hset : w.extractLsb' q.1 q.2 ≠ 0) : decode w = .error .reservedField := by
  obtain ⟨fields, hrow⟩ := exists_row_of_mem_formatOpcodes hopc
  have hreserved : ¬w &&& reservedMask f = 0 := fun hzero =>
    hset ((and_reservedMask_eq_zero_iff w f).mp hzero q hq)
  rw [decode, hrow]
  exact if_neg hreserved

/-- Settles O4: the opcode gives the format, and the set bit lies in a field the format reserves. -/
theorem reservedBitsRaiseReservedField : Obligations.ReservedBitsRaiseReservedField := by
  intro s hturn hbit
  suffices hdec : decode s.cmd = .error .reservedField from step_of_decode_error hturn hdec
  obtain ⟨hopc, hset⟩ | ⟨hopc, hset⟩ | ⟨hopc, hset | hset⟩ | ⟨hopc, hset⟩ | ⟨hopc, hset⟩ | ⟨hopc, hset⟩ := hbit
  · exact decode_eq_reservedField .U (8, 24) hopc (by decide) hset
  · exact decode_eq_reservedField .P (16, 16) hopc (by decide) hset
  · exact decode_eq_reservedField .H (22, 10) hopc (by decide) hset
  · exact decode_eq_reservedField .H (14, 2) hopc (by decide) hset
  · exact decode_eq_reservedField .K (24, 8) (List.mem_singleton.mpr hopc) (by decide) hset
  · exact decode_eq_reservedField .MB (20, 12) (List.mem_singleton.mpr hopc) (by decide) hset
  · exact decode_eq_reservedField .M (25, 7) (List.mem_singleton.mpr hopc) (by decide) hset

/-- The value of a concatenation: the high part above the low part's bits. -/
theorem toNat_append_eq_add {n k : Nat} (hi : BitVec n) (lo : BitVec k) :
    (hi ++ lo).toNat = hi.toNat * 2 ^ k + lo.toNat := by
  rw [BitVec.toNat_append, ← Nat.shiftLeft_add_eq_or_of_lt lo.isLt, Nat.shiftLeft_eq]

/-- MIXMODE is CIPHER above ROUNDS, in a word that holds both (R98). -/
theorem toNat_mixmodeField {w : Word} {c : BitVec 1} {rounds : BitVec 8} (hcipher : w.extractLsb' 16 1 = c)
    (hrounds : w.extractLsb' 8 8 = rounds) : (mixmodeField w).toNat = c.toNat * 256 + rounds.toNat := by
  have hsplit : w.extractLsb' 16 1 ++ w.extractLsb' 8 8 = mixmodeField w :=
    BitVec.extractLsb'_append_extractLsb'_eq_extractLsb' rfl
  rw [← hsplit, hcipher, hrounds, toNat_append_eq_add]
  rfl

/-- Settles O6: in both formats CIPHER stands at bit 16 and ROUNDS from bit 8. -/
theorem mixmodePacksCipherAndRounds : Obligations.MixmodePacksCipherAndRounds := fun _ _ _ _ =>
  ⟨toNat_mixmodeField ((extractLsb'_append_skip _ _).trans (extractLsb'_append_field _ _ _))
      (extractLsb'_append_field _ _ _),
    toNat_mixmodeField ((extractLsb'_append_skip _ _).trans (extractLsb'_append_field _ _ _))
      (extractLsb'_append_field _ _ _)⟩

/-- Settles O7. -/
theorem stepRunsTheDecodedCommand : Obligations.StepRunsTheDecodedCommand := by
  intro s i hturn hdec
  simp [step, hturn, hdec]

/-- Settles O8: the placed word is the encoding, and with the latency over it is the core's turn. -/
theorem placedWordRunsNext : Obligations.PlacedWordRunsNext := by
  intro s i
  refine stepRunsTheDecodedCommand _ i (by simp [coreTurn]) ?_
  rw [withFetchWord_cmd, Nat.mod_eq_of_lt (encode i).isLt, BitVec.ofNat_toNat, BitVec.setWidth_eq]
  exact decodeOfEncodeIsTheCommand i

end Sys2Proof.Machine

/-! The checks of the commands: when each fails, the code it raises, the order of the codes, and the error each command
raises (spec 60_exceptions.md R282, R283). -/

namespace Sys2Proof.Machine

/-! ### Each check -/

@[simp] theorem checkRounds_code (rounds : BitVec 8) : (checkRounds rounds).code = .rounds := rfl
@[simp] theorem checkLengths_code (keylen outlen : BitVec 6) : (checkLengths keylen outlen).code = .param := rfl
@[simp] theorem checkR_code (s : State) (rexp : BitVec 3) : (checkR s rexp).code = .param := rfl
@[simp] theorem checkNexp_code (nexp : BitVec 5) : (checkNexp nexp).code = .param := rfl
@[simp] theorem checkOpen_code (s : State) : (checkOpen s).code = .state := rfl
@[simp] theorem checkLength_code (s : State) : (checkLength s).code = .length := rfl
@[simp] theorem checkAlign_code (operands : List Word) : (checkAlign operands).code = .align := rfl
@[simp] theorem checkRange_code (s : State) (rs : List Region) : (checkRange s rs).code = .range := rfl
@[simp] theorem checkAlloc_code (s : State) (v : Region) : (checkAlloc s v).code = .alloc := rfl
@[simp] theorem checkOverlap_code (x v : Region) : (checkOverlap x v).code = .overlap := rfl

@[simp] theorem checkRounds_fails (rounds : BitVec 8) : (checkRounds rounds).fails = true ↔ ¬evenRounds rounds := by
  simp [checkRounds, evenRounds, ← or_iff_not_imp_left]

theorem checkRounds_passes {rounds : BitVec 8} (h : evenRounds rounds) : (checkRounds rounds).fails = false :=
  Bool.eq_false_iff.mpr fun hfails => (checkRounds_fails rounds).mp hfails h

@[simp] theorem checkLengths_fails (keylen outlen : BitVec 6) :
    (checkLengths keylen outlen).fails = true ↔ ¬legalDigest keylen outlen := by
  simp only [checkLengths, Bool.or_eq_true, decide_eq_true_eq]
  omega

theorem checkLengths_passes {keylen outlen : BitVec 6} (h : legalDigest keylen outlen) :
    (checkLengths keylen outlen).fails = false :=
  Bool.eq_false_iff.mpr fun hfails => (checkLengths_fails keylen outlen).mp hfails h

@[simp] theorem checkR_fails (s : State) (rexp : BitVec 3) :
    (checkR s rexp).fails = true ↔ s.cfg.rMax < 2 ^ rexp.toNat := by
  exact decide_eq_true_iff

@[simp] theorem checkNexp_fails (nexp : BitVec 5) : (checkNexp nexp).fails = true ↔ nexp = 0 := by
  simp [checkNexp]

theorem checkNexp_passes {nexp : BitVec 5} (h : nexp ≠ 0) : (checkNexp nexp).fails = false :=
  Bool.eq_false_iff.mpr fun hfails => h ((checkNexp_fails nexp).mp hfails)

@[simp] theorem checkOpen_fails (s : State) : (checkOpen s).fails = true ↔ s.ctx.valid = false := by
  simp [checkOpen]

@[simp] theorem checkLength_fails (s : State) : (checkLength s).fails = true ↔ s.arg3.toNat % 32 ≠ 0 := by
  simp [checkLength]

@[simp] theorem checkAlign_fails (operands : List Word) :
    (checkAlign operands).fails = true ↔ ¬∀ a ∈ operands, wordAligned a := by
  simp [checkAlign]

@[simp] theorem checkRange_fails (s : State) (rs : List Region) :
    (checkRange s rs).fails = true ↔ ¬∀ r ∈ rs, inRange s r = true := by
  simp [checkRange]

@[simp] theorem checkAlloc_fails (s : State) (v : Region) : (checkAlloc s v).fails = true ↔ ¬inRange s v = true := by
  simp [checkAlloc]

@[simp] theorem checkOverlap_fails (x v : Region) :
    (checkOverlap x v).fails = true ↔ regionsOverlap x v = true := Iff.rfl

/-! ### Every command -/

/-- Settles O23: a command raises an error or completes. -/
theorem everyCommandCompletes : Obligations.EveryCommandCompletes := by
  intro i s
  rw [exec_eq]
  cases hfirst : firstError (checksOf i s) with
  | none => exact ⟨_, runCommand_passes i _ s hfirst⟩
  | some c => exact ⟨_, runCommand_raises i _ s c hfirst⟩

/-- No check fails exactly when there is no first error (R282). -/
theorem firstError_eq_none_iff (cs : List Check) : firstError cs = none ↔ ∀ k ∈ cs, ¬k.fails = true := by
  simp [firstError]

/-- A command that checks its lengths first runs with legal ones alone (R95). -/
theorem legalDigest_of_firstError_eq_none {keylen outlen : BitVec 6} {cs : List Check}
    (h : firstError (checkLengths keylen outlen :: cs) = none) : legalDigest keylen outlen :=
  not_not.mp (mt (checkLengths_fails _ _).mpr ((firstError_eq_none_iff _).mp h _ (List.mem_cons_self ..)))

/-- The checks of every command stand in the order of their codes (R283). -/
theorem checksOf_sorted (i : Instr) (s : State) :
    (checksOf i s).Pairwise fun k l => k.code.code ≤ l.code.code := by
  cases i <;> simp [checksOf, ErrorCode.code]

/-- In a list sorted by code the first failing check has the lowest code. -/
theorem firstError_code_le {cs : List Check} (hsorted : cs.Pairwise fun k l => k.code.code ≤ l.code.code)
    {c : ErrorCode} (hfirst : firstError cs = some c) {k : Check} (hk : k ∈ cs) (hfails : k.fails = true) :
    c.code ≤ k.code.code := by
  induction cs with
  | nil => cases hk
  | cons l cs ih =>
    obtain ⟨hle, hsorted⟩ := List.pairwise_cons.mp hsorted
    rw [firstError_cons] at hfirst
    obtain rfl | hk := List.mem_cons.mp hk
    · rw [if_pos hfails] at hfirst
      cases hfirst
      exact BitVec.le_refl _
    · split at hfirst
      · cases hfirst
        exact hle k hk
      · exact ih hsorted hfirst hk

/-- Settles O25: the first failing check is reported, and the checks are in the order of their codes. -/
theorem lowestFailingCodeIsReported : Obligations.LowestFailingCodeIsReported := by
  intro i s t hexec ⟨k, hk, hfails⟩
  obtain ⟨c, hfirst, rfl⟩ | ⟨hnone, -⟩ := exec_cases i s t hexec
  · obtain ⟨l, hl, hlfails, rfl⟩ := exists_check_of_firstError hfirst
    exact ⟨⟨l, hl, hlfails, rfl⟩, fun _ hk hfails => firstError_code_le (checksOf_sorted i s) hfirst hk hfails⟩
  · exact absurd hfails ((firstError_eq_none_iff _).mp hnone k hk)

/-! ### The errors of each command -/

/-- COPY, XOR and SWAP have the same checks (R120). -/
theorem checksOf_copyLike {i : Instr} (hi : i ∈ [Instr.copy, .xor, .swap]) (s : State) :
    checksOf i s =
      [checkLength s, checkAlign [s.arg0, s.arg1],
        checkRange s [region s.arg0 s.arg3.toNat, region s.arg1 s.arg3.toNat]] := by
  simp only [List.mem_cons, List.not_mem_nil, or_false] at hi
  rcases hi with rfl | rfl | rfl <;> rfl

/-- Settles O26: the first failing check of each clause. -/
theorem utilityErrors : Obligations.UtilityErrors := by
  intro s
  refine ⟨fun i hi => ⟨fun hlen => ?_, fun hlen halign => ?_, fun hlen halign0 halign1 hfits => ?_⟩, fun hlen => ?_,
    fun hlen halign => ?_, fun hlen halign hfits => ?_⟩ <;> apply exec_of_firstError_eq_some
  · simp [checksOf_copyLike hi, hlen]
  · simp [checksOf_copyLike hi, hlen, -not_and, halign]
  · simp [checksOf_copyLike hi, hlen, wordAligned, halign0, halign1, inRange_region_iff, -not_and, hfits]
  · simp [checksOf, hlen]
  · simp [checksOf, hlen, halign]
  · simp [checksOf, hlen, halign, inRange_region_iff, hfits]

/-- Settles O27: SALSA and CHACHA have the same checks. -/
theorem permutationErrors : Obligations.PermutationErrors := by
  intro s rounds i hi
  obtain ⟨c, rfl⟩ : ∃ c, i = coreCommand c rounds := by
    simp only [List.mem_cons, List.not_mem_nil, or_false] at hi
    obtain rfl | rfl := hi
    · exact ⟨.salsa, rfl⟩
    · exact ⟨.chacha, rfl⟩
  refine ⟨fun hrounds => ?_, fun hrounds halign => ?_, fun hrounds halign hfits => ?_⟩ <;>
    apply exec_of_firstError_eq_some
  · simp [-not_and, hrounds]
  · simp [checkRounds_passes hrounds, halign]
  · simp [checkRounds_passes hrounds, halign, inRange_region_iff, hfits]

/-- Settles O28: the first failing check of each clause. -/
theorem blake2sErrors : Obligations.Blake2sErrors := by
  intro s keylen outlen
  refine ⟨fun hparam => ⟨?_, ?_⟩, fun hparam hfits => ?_, fun hparam hfits => ?_, fun hopen => ⟨?_, ?_⟩,
    fun hopen hfits => ?_, fun hopen hfits => ?_, fun hfits => ?_⟩ <;> apply exec_of_firstError_eq_some
  · simp [checksOf, -not_and, hparam]
  · simp [checksOf, -not_and, hparam]
  · simp [checksOf, checkLengths_passes hparam, inRange_region_iff, hfits]
  · simp [checksOf, checkLengths_passes hparam, inRange_region_iff, -not_and, hfits]
  · simp [checksOf, hopen]
  · simp [checksOf, hopen]
  · simp [checksOf, hopen, inRange_region_iff, hfits]
  · simp [checksOf, hopen, inRange_region_iff, hfits]
  · simp [checksOf, inRange_region_iff, hfits]

theorem regionsOverlap_iff (a b : Word) (n k : Nat) :
    regionsOverlap (region a n) (region b k) = true ↔
      0 < n ∧ 0 < k ∧ a.toNat < b.toNat + k ∧ b.toNat < a.toNat + n := by
  simp only [regionsOverlap, Bool.and_eq_true, decide_eq_true_eq, and_assoc]
  rfl

/-- SMIX with legal fields checks its operands alone. -/
theorem firstError_smix {s : State} {nexp : BitVec 5} {rexp : BitVec 3} {rounds : BitVec 8} (c : Cipher)
    (hrounds : evenRounds rounds) (hr : 2 ^ rexp.toNat ≤ s.cfg.rMax) (hnexp : nexp ≠ 0) :
    firstError (checksOf (.smix nexp rexp c rounds) s) =
      firstError [checkAlign [s.arg0, s.arg1], checkRange s [xRegion s rexp], checkAlloc s (vRegion s nexp rexp),
        checkOverlap (xRegion s rexp) (vRegion s nexp rexp)] := by
  rw [checksOf, firstError_cons, checkRounds_passes hrounds, firstError_cons,
    if_neg (mt (checkR_fails s rexp).mp (not_lt.mpr hr)), firstError_cons, checkNexp_passes hnexp]
  rfl

/-- Settles O29: the first failing check of each clause. -/
theorem fastkdfAndMixerErrors : Obligations.FastkdfAndMixerErrors := by
  intro s a b nexp rexp c rounds
  refine ⟨fun hfits => ?_, fun hrounds => ⟨?_, ?_⟩, fun hrounds hr => ⟨?_, ?_⟩, fun hrounds => ?_,
    fun hrounds hr halign => ?_, fun hrounds hr halign hfits => ?_, fun hrounds hr hnexp => ?_⟩
  case refine_9 =>
    have hx : xRegion s rexp = region s.arg0 (128 * 2 ^ rexp.toNat) := rfl
    have hv : vRegion s nexp rexp = region s.arg1 (2 ^ nexp.toNat * (128 * 2 ^ rexp.toNat)) := rfl
    split_ifs with halign hfits hfitsV hoverlap
    all_goals
      apply exec_of_firstError_eq_some
      rw [firstError_smix c hrounds hr hnexp, hx, hv]
    · simp [wordAligned, halign, inRange_region_iff, hfits, hfitsV, regionsOverlap_iff, hoverlap]
    · simp [wordAligned, halign, inRange_region_iff, hfits, hfitsV]
    · simp [wordAligned, halign, inRange_region_iff, hfits]
    · simp [-not_and, halign]
  all_goals apply exec_of_firstError_eq_some
  · simp [checksOf, olenOf, slenOf, inRange_region_iff, -not_and, hfits]
  · simp [checksOf, -not_and, hrounds]
  · simp [checksOf, -not_and, hrounds]
  · simp [checksOf, checkRounds_passes hrounds, hr]
  · simp [checksOf, checkRounds_passes hrounds, hr]
  · simp [checksOf, checkRounds_passes hrounds]
  · simp [checksOf, checkRounds_passes hrounds, not_lt.mpr hr, halign]
  · simp [checksOf, checkRounds_passes hrounds, not_lt.mpr hr, halign, xRegion, chainLen, chainR,
      inRange_region_iff, hfits]

end Sys2Proof.Machine

/-! The BLAKE2s context: what appending a byte and a string leaves, the context B2S_INIT opens and the one B2S_FINAL
closes, and the PRF as a keyed hash (spec 42_blake2s.md R174 to R180, 43_fastkdf.md R210). -/

namespace Sys2Proof.Machine

/-! ### One byte -/

theorem ctxByte_of_room {c : Ctx} (h : c.buflen < 64) (b : Byte) :
    ctxByte c b = { c with buf := c.buf.setIfInBounds c.buflen b, buflen := c.buflen + 1 } :=
  if_neg (show ¬64 < c.buflen + 1 by omega)

theorem ctxByte_of_full {c : Ctx} (h : 64 ≤ c.buflen) (b : Byte) :
    ctxByte c b = compressBuf { c with buf := c.buf.setIfInBounds c.buflen b, buflen := c.buflen + 1 } :=
  if_pos (show 64 < c.buflen + 1 by omega)

/-- A byte writes H, T and the buffer alone (R176). -/
theorem ctxByte_frame (c : Ctx) (b : Byte) :
    ∃ h t buf n, ctxByte c b = { c with h := h, t := t, buf := buf, buflen := n } := by
  by_cases hroom : c.buflen < 64
  · exact ⟨_, _, _, _, ctxByte_of_room hroom b⟩
  · exact ⟨_, _, _, _, ctxByte_of_full (by omega) b⟩

theorem ctxByte_buflen {c : Ctx} (h : c.buflen ≤ 64) (b : Byte) :
    (ctxByte c b).buflen ≤ 64 ∧ 1 ≤ (ctxByte c b).buflen := by
  by_cases hroom : c.buflen < 64
  · rw [ctxByte_of_room hroom]
    exact ⟨hroom, Nat.le_add_left 1 _⟩
  · rw [ctxByte_of_full (by omega)]
    simp only [compressBuf]
    omega

/-- The bytes a context has taken in: those compressed and those buffered (R34, R177). -/
def Ctx.taken (c : Ctx) : BitVec 64 := c.t + BitVec.ofNat 64 c.buflen

theorem ctxByte_taken (c : Ctx) (b : Byte) : (ctxByte c b).taken = c.taken + 1 := by
  by_cases hroom : c.buflen < 64
  · simp only [ctxByte_of_room hroom, Ctx.taken]
    rw [BitVec.ofNat_add, ← BitVec.add_assoc]
    rfl
  · obtain ⟨k, hk⟩ := Nat.exists_eq_add_of_le (Nat.le_of_not_lt hroom)
    simp only [ctxByte_of_full (Nat.le_of_not_lt hroom), compressBuf, Ctx.taken, hk]
    rw [show 64 + k + 1 - 64 = k + 1 by omega, BitVec.ofNat_add, BitVec.ofNat_add]
    ac_rfl

/-! ### A string -/

@[simp] theorem ctxUpdate_nil (c : Ctx) : ctxUpdate c [] = c := rfl

@[simp] theorem ctxUpdate_cons (c : Ctx) (b : Byte) (data : List Byte) :
    ctxUpdate c (b :: data) = ctxUpdate (ctxByte c b) data := rfl

/-- A string writes H, T and the buffer alone (R176). -/
theorem ctxUpdate_frame (c : Ctx) (data : List Byte) :
    ∃ h t buf n, ctxUpdate c data = { c with h := h, t := t, buf := buf, buflen := n } := by
  induction data generalizing c with
  | nil => exact ⟨_, _, _, _, rfl⟩
  | cons b data ih =>
    obtain ⟨h, t, buf, n, hrest⟩ := ih (ctxByte c b)
    obtain ⟨_, _, _, _, hbyte⟩ := ctxByte_frame c b
    exact ⟨h, t, buf, n, by rw [ctxUpdate_cons, hrest, hbyte]⟩

@[simp] theorem ctxUpdate_f0 (c : Ctx) (data : List Byte) : (ctxUpdate c data).f0 = c.f0 := by
  obtain ⟨_, _, _, _, h⟩ := ctxUpdate_frame c data; rw [h]

@[simp] theorem ctxUpdate_f1 (c : Ctx) (data : List Byte) : (ctxUpdate c data).f1 = c.f1 := by
  obtain ⟨_, _, _, _, h⟩ := ctxUpdate_frame c data; rw [h]

@[simp] theorem ctxUpdate_outlen (c : Ctx) (data : List Byte) : (ctxUpdate c data).outlen = c.outlen := by
  obtain ⟨_, _, _, _, h⟩ := ctxUpdate_frame c data; rw [h]

@[simp] theorem ctxUpdate_keylen (c : Ctx) (data : List Byte) : (ctxUpdate c data).keylen = c.keylen := by
  obtain ⟨_, _, _, _, h⟩ := ctxUpdate_frame c data; rw [h]

/-- BUFLEN stays in its range, and a string that is not empty leaves at least one byte buffered (R34). -/
theorem ctxUpdate_buflen {c : Ctx} (h : c.buflen ≤ 64) (data : List Byte) :
    (ctxUpdate c data).buflen ≤ 64 ∧ (data ≠ [] → 1 ≤ (ctxUpdate c data).buflen) := by
  induction data using List.reverseRecOn with
  | nil => exact ⟨h, fun hne => absurd rfl hne⟩
  | append_singleton data b ih =>
    obtain ⟨hle, -⟩ := ih
    obtain ⟨hle', hpos⟩ := ctxByte_buflen hle b
    rw [ctxUpdate_append]
    exact ⟨hle', fun _ => hpos⟩

theorem ctxUpdate_taken (c : Ctx) (data : List Byte) :
    (ctxUpdate c data).taken = c.taken + BitVec.ofNat 64 data.length := by
  induction data generalizing c with
  | nil => simp
  | cons b data ih =>
    rw [ctxUpdate_cons, ih, ctxByte_taken, List.length_cons, BitVec.ofNat_add]
    ac_rfl

/-- Settles O38: each clause is a law of `ctxUpdate`. -/
theorem updateCountsItsBytes : Obligations.UpdateCountsItsBytes := by
  intro c data hbuflen
  obtain ⟨hle, hpos⟩ := ctxUpdate_buflen hbuflen data
  refine ⟨?_, hle, hpos, ?_, ctxUpdate_f0 c data, ctxUpdate_f1 c data, ctxUpdate_outlen c data,
    ctxUpdate_keylen c data, ctxUpdate_valid c data⟩
  · rw [BitVec.ofNat_add, ← BitVec.add_assoc]
    exact ctxUpdate_taken c data
  · rintro rfl
    rfl

/-! ### A string that fits in the block -/

/-- A buffer with a string stored from a position up. -/
def storeBuf (buf : Vector Byte 128) (pos : Nat) (data : List Byte) : Vector Byte 128 :=
  Vector.ofFn fun k => if pos ≤ k.val ∧ k.val < pos + data.length then data.getD (k.val - pos) 0 else buf[k]

theorem getElem_storeBuf (buf : Vector Byte 128) (pos : Nat) (data : List Byte) (k : Nat) (hk : k < 128) :
    (storeBuf buf pos data)[k] = if pos ≤ k ∧ k < pos + data.length then data.getD (k - pos) 0 else buf[k] := by
  simp [storeBuf]

theorem storeBuf_nil (buf : Vector Byte 128) (pos : Nat) : storeBuf buf pos [] = buf := by
  ext k hk
  rw [getElem_storeBuf, if_neg (by simp)]

theorem storeBuf_cons (buf : Vector Byte 128) (pos : Nat) (b : Byte) (data : List Byte) :
    storeBuf buf pos (b :: data) = storeBuf (buf.setIfInBounds pos b) (pos + 1) data := by
  ext k hk
  rw [getElem_storeBuf, getElem_storeBuf, List.length_cons, Vector.getElem_setIfInBounds]
  by_cases hpos : k = pos
  · subst hpos
    simp
  · by_cases hin : pos + 1 ≤ k ∧ k < pos + 1 + data.length
    · obtain ⟨j, rfl⟩ := Nat.exists_eq_add_of_le hin.1
      rw [if_pos hin, if_pos (by omega), show pos + 1 + j - pos = j + 1 by omega, Nat.add_sub_cancel_left,
        List.getD_cons_succ]
    · rw [if_neg hin, if_neg (by omega), if_neg (by omega)]

/-- A string that fits is buffered, and nothing is compressed (R176). -/
theorem ctxUpdate_of_room {c : Ctx} {data : List Byte} (h : c.buflen + data.length ≤ 64) :
    ctxUpdate c data =
      { c with buf := storeBuf c.buf c.buflen data, buflen := c.buflen + data.length } := by
  induction data generalizing c with
  | nil => rw [storeBuf_nil]; rfl
  | cons b data ih =>
    rw [List.length_cons] at h
    rw [ctxUpdate_cons, ctxByte_of_room (by omega), ih (by simp only; omega), storeBuf_cons]
    simp only [List.length_cons, Nat.add_assoc, Nat.add_comm 1]

/-- The first 64 bytes of the buffer, as a list of its own. -/
theorem take_toList_eq {buf : Vector Byte 128} {block : List Byte} (hlen : block.length = 64)
    (h : ∀ k (hk : k < 64), buf[k] = block.getD k 0) : buf.toList.take 64 = block := by
  apply List.ext_getElem
  · simp [hlen]
  · intro k hk hk'
    simp only [List.getElem_take, Vector.getElem_toList]
    rw [h k (by omega), List.getD_eq_getElem _ _ hk']

/-- A whole block appended to a full buffer: the buffered block is compressed and the new one takes its place (R176). -/
theorem ctxUpdate_of_full {c : Ctx} {block data : List Byte} (hfull : c.buflen = 64)
    (hbuf : c.buf.toList.take 64 = block) (hdata : data.length = 64) :
    ∃ buf, ctxUpdate c data =
        { c with h := compress c.h block (c.t + 64) c.f0 c.f1, t := c.t + 64, buf := buf, buflen := 64 } ∧
      buf.toList.take 64 = data := by
  obtain ⟨b, data, rfl⟩ := List.exists_cons_of_length_eq_add_one hdata
  rw [List.length_cons] at hdata
  have hset : (c.buf.setIfInBounds 64 b).toList.take 64 = c.buf.toList.take 64 := by
    apply List.ext_getElem
    · simp
    · intro k hk _
      have : k < 64 := by simp at hk; omega
      simp [show ¬64 = k by omega]
  refine ⟨storeBuf (shiftBuf (c.buf.setIfInBounds 64 b)) 1 data, ?_, ?_⟩
  · rw [ctxUpdate_cons, ctxByte_of_full (by omega), ctxUpdate_of_room (by simp only [compressBuf]; omega)]
    simp only [compressBuf, hfull, hset, hbuf, Nat.reduceAdd, Nat.reduceSub, Nat.add_comm 1, hdata]
  · refine take_toList_eq (by simp [hdata]) fun k hk => ?_
    rw [getElem_storeBuf]
    cases k with
    | zero => simp [shiftBuf]
    | succ k => rw [if_pos (by omega), Nat.add_sub_cancel, List.getD_cons_succ]

/-! ### Opening a context -/

@[simp] theorem ctxInit_outlen (outlen keylen : BitVec 6) (key : List Byte) :
    (ctxInit outlen keylen key).outlen = outlen := by
  unfold ctxInit
  split
  · rfl
  · exact ctxUpdate_outlen _ _

@[simp] theorem ctxInit_keylen (outlen keylen : BitVec 6) (key : List Byte) :
    (ctxInit outlen keylen key).keylen = keylen := by
  unfold ctxInit
  split
  · rfl
  · exact ctxUpdate_keylen _ _

theorem ctxInit_buflen_le (outlen keylen : BitVec 6) (key : List Byte) : (ctxInit outlen keylen key).buflen ≤ 64 := by
  unfold ctxInit
  split
  · exact Nat.zero_le _
  · exact (ctxUpdate_buflen (Nat.zero_le _) _).1

/-- The key padded with zeros to a block (R175). -/
def keyBlock (key : List Byte) : List Byte := key ++ List.replicate (64 - key.length) 0

theorem length_keyBlock {key : List Byte} (h : key.length ≤ 64) : (keyBlock key).length = 64 := by
  simp [keyBlock, h]

theorem getD_keyBlock (key : List Byte) (k : Nat) : (keyBlock key).getD k 0 = key.getD k 0 := by
  simp only [keyBlock, List.getD_eq_getElem?_getD]
  by_cases hk : k < key.length
  · rw [List.getElem?_append_left hk]
  · rw [List.getElem?_append_right (by omega), List.getElem?_eq_none (by omega : key.length ≤ k),
      List.getElem?_replicate]
    split <;> rfl

/-- A context opened with a key holds its padded block (R175). -/
theorem ctxInit_of_key {outlen keylen : BitVec 6} {key : List Byte} (hkey : keylen ≠ 0)
    (hlen : key.length = keylen.toNat) (_hle : keylen.toNat ≤ 64) :
    ctxInit outlen keylen key =
      { ctxFresh outlen keylen with buf := storeBuf (Vector.replicate 128 0) 0 (keyBlock key), buflen := 64 } := by
  have hroom : (ctxFresh outlen keylen).buflen + (keyBlock key).length ≤ 64 := by
    rw [length_keyBlock (by omega)]
    rfl
  rw [ctxInit, if_neg hkey, ← hlen, List.take_length, ← keyBlock, ctxUpdate_of_room hroom,
    length_keyBlock (by omega)]
  rfl

theorem take_storeBuf_zero {buf : Vector Byte 128} {block : List Byte} (hblock : block.length = 64) :
    (storeBuf buf 0 block).toList.take 64 = block :=
  take_toList_eq hblock fun k hk => by rw [getElem_storeBuf, if_pos (by omega), Nat.sub_zero]

/-! ### Closing a context -/

/-- With BUFLEN in its range the first branch of `CtxFinal` does not run (R177, N19). -/
theorem ctxFinal_of_le {c : Ctx} (h : c.buflen ≤ 64) :
    ctxFinal c =
      { c with
        t := c.taken
        f0 := 0xFFFFFFFF
        buf := zeroBufFrom c.buflen c.buf
        h := compress c.h ((zeroBufFrom c.buflen c.buf).toList.take 64) c.taken 0xFFFFFFFF c.f1
        valid := false } := by
  simp only [ctxFinal, if_neg (Nat.not_lt.mpr h)]
  rfl

@[simp] theorem ctxFinal_outlen (c : Ctx) : (ctxFinal c).outlen = c.outlen := by
  simp only [ctxFinal]
  split <;> rfl

theorem getElem_zeroBufFrom (n : Nat) (buf : Vector Byte 128) (k : Nat) (hk : k < 128) :
    (zeroBufFrom n buf)[k] = if k < n then buf[k] else 0 := by
  simp [zeroBufFrom]

/-- The block a final compression sees: the buffered bytes and zeros (R177). -/
theorem take_zeroBufFrom {n : Nat} (hn : n ≤ 64) (buf : Vector Byte 128) :
    (zeroBufFrom n buf).toList.take 64 = buf.toList.take n ++ List.replicate (64 - n) 0 := by
  refine take_toList_eq (by simp; omega) fun k hk => ?_
  rw [getElem_zeroBufFrom, List.getD_eq_getElem?_getD]
  by_cases hkn : k < n
  · rw [if_pos hkn, List.getElem?_append_left (by simp; omega), List.getElem?_take_of_lt hkn]
    simp [show k < 128 by omega]
  · rw [if_neg hkn, List.getElem?_append_right (by simp; omega), List.getElem?_replicate]
    split <;> rfl

theorem length_keyedHash (outlen keylen : BitVec 6) (key input : List Byte) :
    (keyedHash outlen keylen key input).length = min outlen.toNat 32 := by
  simp [keyedHash]

/-- Settles O52: the key block fills the buffer, the message block pushes it into the first compression, and closing
the context compresses the message block. -/
theorem prfIsTheKeyedHash : Obligations.PrfIsTheKeyedHash := by
  intro key msg hkey hmsg
  have hblock : (keyBlock key).length = 64 := length_keyBlock (by omega)
  have hopen := ctxInit_of_key (outlen := 32) (keylen := 32) (key := key) (by decide) hkey (by decide)
  obtain ⟨buf, hfed, hbuf⟩ := ctxUpdate_of_full (c := ctxInit 32 32 key) (block := keyBlock key)
    (by rw [hopen]) (by rw [hopen]; exact take_storeBuf_zero hblock) hmsg
  have hzeros : (zeroBufFrom 64 buf).toList.take 64 = msg := by
    rw [take_zeroBufFrom le_rfl, hbuf]
    simp
  have hdigest : keyedHash 32 32 key msg = leBytes (ctxFinal (ctxUpdate (ctxInit 32 32 key) msg)).h.toList := by
    rw [keyedHash, digest, List.take_of_length_le]
    simp
  rw [hdigest, hfed, ctxFinal_of_le le_rfl]
  simp only [hzeros]
  rw [hopen]
  simp only [prf, keyBlock, hkey, Ctx.taken, ctxFresh]
  rfl

end Sys2Proof.Machine

/-! Where commands write: the regions that hold an address, loops that write one byte a turn, the frame of every
command's effect, and what a reset leaves of memory (spec 20_memory.md R70, 70_reset_and_hazards.md R311, R312). -/

namespace Sys2Proof.Machine

/-! ### Regions -/

theorem inRegions_eq_true_iff (rs : List Region) (a : Nat) :
    inRegions rs a = true ↔ ∃ r ∈ rs, r.base ≤ a ∧ a < r.base + r.size := by
  simp only [inRegions, Region.holds, List.any_eq_true, Bool.and_eq_true, decide_eq_true_eq]

theorem inRegions_eq_false_iff (rs : List Region) (a : Nat) :
    inRegions rs a = false ↔ ∀ r ∈ rs, a < r.base ∨ r.base + r.size ≤ a := by
  rw [← Bool.not_eq_true, inRegions_eq_true_iff]
  push Not
  simp only [← not_lt, or_iff_not_imp_left]

@[simp] theorem region_base (a : Word) (n : Nat) : (region a n).base = a.toNat := rfl
@[simp] theorem region_size (a : Word) (n : Nat) : (region a n).size = n := rfl

/-- An address that only regions in range hold lies in memory (R9). -/
theorem lt_memSize_of_inRegions {s : State} {rs : List Region} (hrange : ∀ r ∈ rs, inRange s r = true) {a : Nat}
    (ha : inRegions rs a = true) : a < s.cfg.memSize := by
  obtain ⟨r, hr, hlo, hhi⟩ := (inRegions_eq_true_iff rs a).mp ha
  have hfits := hrange r hr
  simp only [inRange, Bool.or_eq_true, beq_iff_eq, decide_eq_true_eq] at hfits
  omega

/-! ### Loops that write one byte a turn -/

/-- The shape of the loops of COPY, ERASE and XOR: turn `k` writes the byte at `dst + k`. -/
def writeLoop (f : Nat → Memory → Byte) (dst n : Nat) (m : Memory) : Memory :=
  forLoop n (fun k m => m.write (dst + k) (f k m)) m

theorem writeLoop_succ (f : Nat → Memory → Byte) (dst n : Nat) (m : Memory) :
    writeLoop f dst (n + 1) m = (writeLoop f dst n m).write (dst + n) (f n (writeLoop f dst n m)) := rfl

theorem writeLoop_wf (f : Nat → Memory → Byte) (dst n : Nat) {m : Memory} (h : m.wf) : (writeLoop f dst n m).wf :=
  forLoop_keeps Memory.wf n _ m h fun _ _ m hm => wf_write m _ _ hm

/-- Each slot holds the byte its own turn computed; every byte outside the slots is as before. -/
theorem read_writeLoop (f : Nat → Memory → Byte) (dst n : Nat) {m : Memory} (h : m.wf) (a : Nat) :
    (writeLoop f dst n m).read a =
      if dst ≤ a ∧ a < dst + n then f (a - dst) (writeLoop f dst (a - dst) m) else m.read a := by
  induction n with
  | zero => rw [if_neg (by omega)]; rfl
  | succ n ih =>
    rw [writeLoop_succ, read_write _ (writeLoop_wf f dst n h), ih]
    by_cases ha : a = dst + n
    · subst ha
      rw [if_pos rfl, if_pos (by omega), Nat.add_sub_cancel_left]
    · simp only [ha, if_false, show a < dst + (n + 1) ↔ a < dst + n by omega]

theorem read_writeLoop_slot (f : Nat → Memory → Byte) (dst : Nat) {n k : Nat} {m : Memory} (h : m.wf) (hk : k < n) :
    (writeLoop f dst n m).read (dst + k) = f k (writeLoop f dst k m) := by
  rw [read_writeLoop f dst n h, if_pos (by omega), Nat.add_sub_cancel_left]

theorem read_writeLoop_of_outside (f : Nat → Memory → Byte) {dst n a : Nat} {m : Memory} (h : m.wf)
    (ha : a < dst ∨ dst + n ≤ a) : (writeLoop f dst n m).read a = m.read a := by
  rw [read_writeLoop f dst n h, if_neg (by omega)]

theorem copyLoop_eq_writeLoop (dst src : Nat) : copyLoop dst src = writeLoop (fun k m => m.read (src + k)) dst := rfl

theorem xorLoop_eq_writeLoop (dst src : Nat) :
    xorLoop dst src = writeLoop (fun k m => m.read (dst + k) ^^^ m.read (src + k)) dst := rfl

/-! ### Frames -/

theorem read_swapLoop_of_outside {a b n x : Nat} {m : Memory} (h : m.wf) (ha : x < a ∨ a + n ≤ x)
    (hb : x < b ∨ b + n ≤ x) : (swapLoop a b n m).read x = m.read x := by
  have hkeep : (swapLoop a b n m).wf ∧ (swapLoop a b n m).read x = m.read x := by
    refine forLoop_keeps (fun y : Memory => y.wf ∧ y.read x = m.read x) n _ m ⟨h, rfl⟩ ?_
    rintro k hk y ⟨hy, hread⟩
    have hy' := wf_write y (a + k) (y.read (b + k)) hy
    exact ⟨wf_write _ _ _ hy', by
      rw [read_write_other _ hy' _ _ _ (by omega), read_write_other _ hy _ _ _ (by omega), hread]⟩
  exact hkeep.2

theorem read_writeBytes_of_outside {m : Memory} (h : m.wf) {a x : Nat} {vs : List Byte}
    (hx : x < a ∨ a + vs.length ≤ x) : (m.writeBytes a vs).read x = m.read x := by
  rw [read_writeBytes m h, if_neg (by omega)]

theorem smixFill_succ_mem (c : Cipher) (rounds r v k : Nat) (l : SmixLoop) :
    (smixFill c rounds r v (k + 1) l).mem =
      (smixFill c rounds r v k l).mem.writeBytes (v + k * (128 * r)) (bytesOfChain (smixFill c rounds r v k l).x) := rfl

/-- The fill phase keeps X at `2r` blocks and writes slots `0 .. k-1` of V alone (R233). -/
theorem smixFill_frame (c : Cipher) (rounds r v k : Nat) {l : SmixLoop} (hwf : l.mem.wf) (hx : l.x.length = 2 * r)
    {a : Nat} (ha : a < v ∨ v + k * (128 * r) ≤ a) :
    (smixFill c rounds r v k l).x.length = 2 * r ∧ (smixFill c rounds r v k l).mem.read a = l.mem.read a := by
  induction k with
  | zero => exact ⟨hx, rfl⟩
  | succ k ih =>
    have hslots : (k + 1) * (128 * r) = k * (128 * r) + 128 * r := Nat.succ_mul _ _
    obtain ⟨hlen, hread⟩ := ih (by omega)
    refine ⟨length_blockMix .., ?_⟩
    rw [← hread]
    rw [smixFill_succ_mem]
    exact read_writeBytes_of_outside (smixFill_wf c rounds r v k l hwf) (by rw [length_bytesOfChain, hlen]; omega)

/-- A mix leaves a chain of `2r` blocks. -/
theorem length_smixRun_x (c : Cipher) (rounds r n v : Nat) {l : SmixLoop} (hx : l.x.length = 2 * r) :
    (smixRun c rounds r n v l).x.length = 2 * r := by
  refine forLoop_keeps (fun l : SmixLoop => l.x.length = 2 * r) n _ _ ?_ fun _ _ _ _ => length_blockMix ..
  exact forLoop_keeps (fun l : SmixLoop => l.x.length = 2 * r) n _ _ hx fun _ _ _ _ => length_blockMix ..

/-! ### What each effect does to memory -/

/-- What SMIX starts from: memory, and the chain at ARG0 (R236). -/
def smixStart (rexp : BitVec 3) (s : State) : SmixLoop where
  mem := s.mem
  x := readChain s.mem s.arg0.toNat (chainR rexp)

/-- X and V as SMIX leaves them before X goes back to memory (R233, R236). -/
def smixOf (nexp : BitVec 5) (rexp : BitVec 3) (c : Cipher) (rounds : BitVec 8) (s : State) : SmixLoop :=
  smixRun c rounds.toNat (chainR rexp) (smixN nexp) s.arg1.toNat (smixStart rexp s)

theorem length_smixOf_x (nexp : BitVec 5) (rexp : BitVec 3) (c : Cipher) (rounds : BitVec 8) (s : State) :
    (smixOf nexp rexp c rounds s).x.length = 2 * chainR rexp :=
  length_smixRun_x _ _ _ _ _ (length_readChain ..)

theorem effectOf_b2sFinal_mem (s : State) :
    (effectOf .b2sFinal s).mem = s.mem.writeBytes s.arg0.toNat (digest (ctxFinal s.ctx)) := rfl

theorem effectOf_b2sHash_mem (keylen outlen : BitVec 6) (s : State) :
    (effectOf (.b2sHash keylen outlen) s).mem =
      s.mem.writeBytes s.arg0.toNat (keyedHash outlen keylen (s.mem.readBytes s.arg1.toNat keylen.toNat)
        (s.mem.readBytes s.arg2.toNat s.arg3.toNat)) := rfl

theorem effectOf_fastkdf_mem (olenm1 slenm1 : BitVec 8) (s : State) :
    (effectOf (.fastkdf olenm1 slenm1) s).mem =
      s.mem.writeBytes s.arg0.toNat (fastKdf (s.mem.readBytes s.arg1.toNat 80)
        (s.mem.readBytes s.arg2.toNat (slenOf slenm1)) (slenOf slenm1) (olenOf olenm1)) := rfl

theorem effectOf_blkmix_mem (rexp : BitVec 3) (c : Cipher) (rounds : BitVec 8) (s : State) :
    (effectOf (.blkmix rexp c rounds) s).mem =
      s.mem.writeBytes s.arg0.toNat (bytesOfChain (blockMix c rounds.toNat (chainR rexp)
        (readChain s.mem s.arg0.toNat (chainR rexp)))) := rfl

theorem effectOf_smix_mem (nexp : BitVec 5) (rexp : BitVec 3) (c : Cipher) (rounds : BitVec 8) (s : State) :
    (effectOf (.smix nexp rexp c rounds) s).mem =
      (smixOf nexp rexp c rounds s).mem.writeBytes s.arg0.toNat (bytesOfChain (smixOf nexp rexp c rounds s).x) := rfl

/-- A chain of `2r` blocks is as long as its region (R71). -/
theorem length_bytesOfChain_of_chain {rexp : BitVec 3} {x : Chain} (hx : x.length = 2 * chainR rexp) :
    (bytesOfChain x).length = chainLen rexp := by
  rw [length_bytesOfChain, hx, chainLen]
  omega

/-- The effect of a command changes no byte outside its write set (R70). -/
theorem effectOf_sameOutside (i : Instr) {s : State} (hwf : s.mem.wf) :
    s.sameOutside (effectOf i s).mem (writeSet i s) := by
  intro a ha
  rw [inRegions_eq_false_iff] at ha
  cases i <;> simp only [writeSet, xRegion, vRegion, List.forall_mem_cons, List.not_mem_nil, IsEmpty.forall_iff,
    implies_true, and_true, region_base, region_size] at ha
  case nop | b2sInit | b2sUpdate | b2sCompress => rfl
  case copy => exact read_writeLoop_of_outside _ hwf ha
  case erase => exact read_writeLoop_of_outside _ hwf ha
  case xor => exact read_writeLoop_of_outside _ hwf ha
  case swap =>
    obtain ⟨ha0, ha1⟩ := ha
    exact read_swapLoop_of_outside hwf ha0 ha1
  case salsa rounds =>
    rw [← coreCommand, effectOf_coreCommand_mem]
    exact read_writeBytes_of_outside hwf (by rwa [length_bytesOfBlock])
  case chacha rounds =>
    rw [← coreCommand, effectOf_coreCommand_mem]
    exact read_writeBytes_of_outside hwf (by rwa [length_bytesOfBlock])
  case b2sFinal =>
    rw [effectOf_b2sFinal_mem]
    exact read_writeBytes_of_outside hwf (by rw [length_digest, ctxFinal_outlen]; omega)
  case b2sHash =>
    rw [effectOf_b2sHash_mem]
    exact read_writeBytes_of_outside hwf (by rw [length_keyedHash]; omega)
  case fastkdf =>
    rw [effectOf_fastkdf_mem]
    exact read_writeBytes_of_outside hwf (by rwa [length_fastKdf])
  case blkmix =>
    rw [effectOf_blkmix_mem]
    exact read_writeBytes_of_outside hwf (by rwa [length_bytesOfChain_of_chain (length_blockMix ..)])
  case smix nexp rexp c rounds =>
    obtain ⟨hx, hv⟩ := ha
    have hfill : (smixOf nexp rexp c rounds s).mem = _ := smixRun_mem ..
    rw [effectOf_smix_mem, read_writeBytes_of_outside, hfill]
    · exact (smixFill_frame _ _ _ _ _ hwf (length_readChain ..) hv).2
    · rw [hfill]
      exact smixFill_wf _ _ _ _ _ _ hwf
    · rwa [length_bytesOfChain_of_chain (length_smixOf_x ..)]

/-! ### Every command, and reset -/

theorem disturb_mem (i : Instr) (s t : State) :
    (disturb i s t).mem = if s.disturbed then scramble s.freeCtr (writeSet i s) t.mem else t.mem := by
  unfold disturb
  split <;> rfl

/-- Settles O45: an error writes no byte, and the effect and a disturbed command's free values stay in the set. -/
theorem commandsWriteOnlyTheirWriteSet : Obligations.CommandsWriteOnlyTheirWriteSet := by
  intro i s t hwf hexec
  obtain ⟨c, -, rfl⟩ | ⟨-, rfl⟩ := exec_cases i s t hexec
  · exact ⟨fun _ _ => rfl, fun _ => rfl⟩
  · refine ⟨fun a ha => ?_, fun hi => ?_⟩
    · rw [complete_mem, disturb_mem, ← effectOf_sameOutside i hwf a ha]
      split
      · rw [read_scramble _ _ _ (effectOf_wf i s hwf), ha]
        rfl
      · rfl
    · obtain ⟨hset, heffect⟩ : writeSet i s = [] ∧ (effectOf i s).mem = s.mem := by
        simp only [List.mem_cons, List.not_mem_nil, or_false] at hi
        rcases hi with (rfl | rfl | rfl) | ⟨_, _, rfl⟩ <;> exact ⟨rfl, rfl⟩
      rw [complete_mem, disturb_mem, hset, heffect]
      exact ite_self _

theorem runningWriteSet_of_idle {s : State} (h : s.status.busy = false) : runningWriteSet s = [] := by
  simp [runningWriteSet, h]

/-- Settles O16: reset makes the write set of the abandoned command free, which is empty when none runs. -/
theorem resetKeepsMemory : Obligations.ResetKeepsMemory := by
  intro s a hwf
  refine ⟨fun ha => ?_, fun hidle => ?_⟩
  · rw [assertReset_mem, read_scramble _ _ _ hwf, ha]
    rfl
  · rw [assertReset_mem, runningWriteSet_of_idle hidle]
    rfl

end Sys2Proof.Machine

/-! What NOP and the utility commands do when their checks pass, on every overlap of their regions (spec
45_control_and_host.md R250, 40_block_utility.md R120 to R124). -/

namespace Sys2Proof.Machine

/-- A command whose checks pass and that no host write disturbs is its effect and the completion (R26). -/
theorem exec_of_firstError_eq_none {i : Instr} {s : State} (hfirst : firstError (checksOf i s) = none)
    (hundisturbed : s.disturbed = false) : exec i s = .next (complete (effectOf i s)) := by
  rw [exec_eq, runCommand_passes _ _ _ hfirst, disturb_of_not _ _ _ hundisturbed]

/-- Settles O30: NOP checks nothing and its effect is the state itself. -/
theorem nopOnlyCompletes : Obligations.NopOnlyCompletes := fun _ hundisturbed =>
  exec_of_firstError_eq_none rfl hundisturbed

/-- A destination inside the source repeats the bytes before it (R121). -/
theorem read_copyLoop_of_inside {dst src n : Nat} {m : Memory} (h : m.wf) (hlo : src < dst) (k : Nat) (hk : k < n) :
    (copyLoop dst src n m).read (dst + k) = m.read (src + k % (dst - src)) := by
  rw [copyLoop_eq_writeLoop] at *
  induction k using Nat.strong_induction_on with
  | _ k ih =>
    rw [read_writeLoop_slot _ dst h hk]
    by_cases hfirst : k < dst - src
    · rw [read_writeLoop_of_outside _ h (by omega), Nat.mod_eq_of_lt hfirst]
    · obtain ⟨j, hj⟩ := Nat.exists_eq_add_of_le (Nat.le_of_not_lt hfirst)
      have hread : src + k = dst + j := by omega
      have hearlier := ih j (by omega) (by omega)
      rw [read_writeLoop_slot _ dst h (by omega)] at hearlier
      rw [hread, read_writeLoop_slot _ dst h (by omega), hearlier, hj, Nat.add_mod_left]

/-- Settles O31: a destination that starts inside the source repeats it, any other takes the bytes as they were. -/
theorem copyResult : Obligations.CopyResult := by
  intro s hquiet hlen halign0 halign1 hfits0 hfits1
  have hs : s.utilityReady := ⟨hquiet, hlen, halign0, halign1, hfits0, hfits1⟩
  obtain ⟨hwf, -⟩ := hquiet
  refine ⟨_, exec_of_utilityReady (i := .copy) (by simp) hs, fun k hk => ?_, effectOf_sameOutside .copy hwf⟩
  split
  case isTrue hinside => exact read_copyLoop_of_inside hwf hinside.1 k hk
  case isFalse houtside =>
    rw [copyLoop_eq_byteLoop, read_byteLoop _ hwf (by omega), if_pos (by omega), Nat.add_sub_cancel_left]

/-- Settles O32: every slot of the loop holds 0. -/
theorem eraseResult : Obligations.EraseResult := by
  intro s ⟨hwf, hundisturbed⟩ hlen halign hfits
  have hfirst : firstError (checksOf .erase s) = none := by
    simp [checksOf, hlen, halign, inRange_region_iff, hfits]
  exact ⟨_, exec_of_firstError_eq_none hfirst hundisturbed, fun k hk => read_writeLoop_slot _ _ hwf hk,
    effectOf_sameOutside .erase hwf⟩

/-- A slot keeps what its turn wrote. -/
theorem read_writeLoop_of_written (f : Nat → Memory → Byte) {dst k n a : Nat} {m : Memory} (h : m.wf)
    (ha : dst ≤ a ∧ a < dst + k) (hk : k ≤ n) : (writeLoop f dst k m).read a = (writeLoop f dst n m).read a := by
  rw [read_writeLoop f dst k h, if_pos ha, read_writeLoop f dst n h, if_pos (by omega)]

/-- Settles O33: turn `k` reads its own slot as it was, and the source byte as it was or as an earlier turn left it. -/
theorem xorResult : Obligations.XorResult := by
  intro s hquiet hlen halign0 halign1 hfits0 hfits1
  have hs : s.utilityReady := ⟨hquiet, hlen, halign0, halign1, hfits0, hfits1⟩
  obtain ⟨hwf, -⟩ := hquiet
  refine ⟨_, exec_of_utilityReady (i := .xor) (by simp) hs, fun k hk => ?_, effectOf_sameOutside .xor hwf⟩
  rw [xorLoop_eq_writeLoop, read_writeLoop_slot _ _ hwf hk, read_writeLoop_of_outside _ hwf (by omega)]
  congr 1
  split
  case isTrue hwritten =>
    exact read_writeLoop_of_written _ hwf hwritten (by omega)
  case isFalse hkept => rw [read_writeLoop_of_outside _ hwf (by omega)]

theorem swapLoop_succ (a b n : Nat) (m : Memory) :
    swapLoop a b (n + 1) m =
      ((swapLoop a b n m).write (a + n) ((swapLoop a b n m).read (b + n))).write (b + n)
        ((swapLoop a b n m).read (a + n)) := rfl

/-- SWAP does not depend on which operand is which. -/
theorem read_swapLoop_comm (a b n : Nat) {m : Memory} (h : m.wf) (x : Nat) :
    (swapLoop a b n m).read x = (swapLoop b a n m).read x := by
  by_cases hne : a = b
  · rw [hne]
  induction n generalizing x with
  | zero => rfl
  | succ n ih =>
    have hab := swapLoop_wf a b n m h
    have hba := swapLoop_wf b a n m h
    rw [swapLoop_succ, swapLoop_succ, read_write _ (wf_write _ _ _ hab), read_write _ hab,
      read_write _ (wf_write _ _ _ hba), read_write _ hba, ih, ih, ih]
    by_cases hxa : x = a + n
    · rw [if_neg (by omega), if_pos hxa, if_pos hxa]
    · rw [if_neg hxa, if_neg hxa]

theorem read_swapLoop_self (a n : Nat) {m : Memory} (h : m.wf) (x : Nat) : (swapLoop a a n m).read x = m.read x := by
  induction n with
  | zero => rfl
  | succ n ih =>
    have hwf := swapLoop_wf a a n m h
    rw [swapLoop_succ, read_write _ (wf_write _ _ _ hwf), read_write _ hwf, ih]
    split
    case isTrue hx => rw [← ih, hx]
    case isFalse => rfl

/-- The byte loop of R124 on regions `d` apart: the lower region takes the bytes `d` above, and the first `d` bytes
travel up in steps of `d`. -/
theorem read_swapLoop_apart (lo n : Nat) {d : Nat} (hd : 0 < d) {m : Memory} (h : m.wf) (x : Nat) :
    (swapLoop lo (lo + d) n m).read x =
      if lo ≤ x ∧ x < lo + n then m.read (x + d)
      else if lo + n ≤ x ∧ x < lo + n + d then m.read (lo + (x - lo) % d) else m.read x := by
  induction n generalizing x with
  | zero =>
    rw [if_neg (by omega)]
    split
    · rw [Nat.mod_eq_of_lt (by omega)]
      congr 1
      omega
    · rfl
  | succ n ih =>
    have hwf := swapLoop_wf lo (lo + d) n m h
    have hupper : (swapLoop lo (lo + d) n m).read (lo + d + n) = m.read (lo + d + n) := by
      rw [ih, if_neg (by omega), if_neg (by omega)]
    have hlower : (swapLoop lo (lo + d) n m).read (lo + n) = m.read (lo + n % d) := by
      rw [ih, if_neg (by omega), if_pos (by omega), Nat.add_sub_cancel_left]
    rw [swapLoop_succ, hupper, hlower, read_write _ (wf_write _ _ _ hwf), read_write _ hwf, ih]
    by_cases hup : x = lo + d + n
    · subst hup
      rw [if_pos rfl, if_neg (by omega), if_pos (by omega), show lo + d + n - lo = d + n by omega, Nat.add_mod_left]
    · rw [if_neg hup]
      by_cases hlow : x = lo + n
      · subst hlow
        rw [if_pos rfl, if_pos (by omega)]
        congr 1
        omega
      · simp only [hlow, if_false, show lo ≤ x ∧ x < lo + (n + 1) ↔ lo ≤ x ∧ x < lo + n by omega,
          show lo + (n + 1) ≤ x ∧ x < lo + (n + 1) + d ↔ lo + n ≤ x ∧ x < lo + n + d by omega]

/-- Settles O34: the operands ordered, the three cases are read off the byte loop. -/
theorem swapResult : Obligations.SwapResult := by
  intro s lo d n hquiet hlen halign0 halign1 hfits0 hfits1 hlo hhi hn
  have hs : s.utilityReady := ⟨hquiet, hlen, halign0, halign1, hfits0, hfits1⟩
  obtain ⟨hwf, -⟩ := hquiet
  subst hn
  refine ⟨(effectOf .swap s).mem, exec_of_utilityReady (by simp) hs, ?_, effectOf_sameOutside .swap hwf⟩
  have hordered : ∀ x, (effectOf .swap s).mem.read x = (swapLoop lo (lo + d) s.arg3.toNat s.mem).read x := by
    intro x
    obtain hle | hle := Nat.le_total s.arg0.toNat s.arg1.toNat
    · rw [hhi, hlo, min_eq_left hle, max_eq_right hle]
      rfl
    · rw [hhi, hlo, min_eq_right hle, max_eq_left hle, read_swapLoop_comm _ _ _ hwf]
      rfl
  simp only [hordered]
  split
  case isTrue hzero =>
    subst hzero
    exact fun a => read_swapLoop_self lo _ hwf a
  case isFalse hne =>
    have hshift := fun x => read_swapLoop_apart lo s.arg3.toNat (Nat.pos_of_ne_zero hne) hwf x
    split
    case isTrue hseparate =>
      refine fun k hk => ⟨?_, ?_⟩
      · rw [hshift, if_pos (by omega), Nat.add_right_comm]
      · rw [hshift, if_neg (by omega), if_pos (by omega), show lo + d + k - lo = d + k by omega, Nat.add_mod_left,
          Nat.mod_eq_of_lt (by omega)]
    case isFalse hoverlap =>
      refine ⟨fun k hk => ?_, fun j hj => ?_⟩
      · rw [hshift, if_pos (by omega)]
      · rw [hshift, if_neg (by omega), if_pos (by omega), show lo + s.arg3.toNat + j - lo = s.arg3.toNat + j by omega]

end Sys2Proof.Machine

/-! What SALSA, CHACHA, the BLAKE2s commands, FASTKDF and BLKMIX do when their checks pass, and the PRF by raw
compressions (spec 41_stream_cipher_cores.md R146, R147, 42_blake2s.md R183 to R187, 43_fastkdf.md R215,
44_blockmix_smix.md R232, 45_control_and_host.md R255). -/

namespace Sys2Proof.Machine

theorem readBytes_writeBytes_of_length {m : Memory} (h : m.wf) (a : Nat) {vs : List Byte} {n : Nat}
    (hlen : vs.length = n) : (m.writeBytes a vs).readBytes a n = vs :=
  hlen ▸ readBytes_writeBytes m h a vs

theorem getD_readBytes (m : Memory) (a : Nat) {n k : Nat} (hk : k < n) :
    (m.readBytes a n).getD k 0 = m.read (a + k) := by
  simp [Memory.readBytes, hk]

/-! ### The cores -/

/-- A core command writes memory alone (R146, R147). -/
theorem effectOf_coreCommand_eq (c : Cipher) (rounds : BitVec 8) (s : State) :
    effectOf (coreCommand c rounds) s = { s with mem := (effectOf (coreCommand c rounds) s).mem } := by
  rw [effectOf_coreCommand, permuteBlock]

/-- Settles O35: both commands are a core command on the block at ARG0. -/
theorem permutationResult : Obligations.PermutationResult := by
  intro s rounds hquiet hrounds halign hfits p hp
  obtain ⟨c, rfl⟩ : ∃ c, p = (coreCommand c rounds, c) := by
    simp only [List.mem_cons, List.not_mem_nil, or_false] at hp
    obtain rfl | rfl := hp
    · exact ⟨.salsa, rfl⟩
    · exact ⟨.chacha, rfl⟩
  obtain ⟨hwf, -⟩ := id hquiet
  have hset : writeSet (coreCommand c rounds) s = [region s.arg0 64] := by cases c <;> rfl
  refine ⟨(effectOf (coreCommand c rounds) s).mem, ?_, ?_, hset ▸ effectOf_sameOutside (coreCommand c rounds) hwf⟩
  · rw [exec_of_coreReady c hrounds ⟨hquiet, halign, hfits⟩, ← effectOf_coreCommand_eq]
  · rw [effectOf_coreCommand_mem]
    exact readBytes_writeBytes_of_length hwf _ (length_bytesOfBlock _)

/-! ### The BLAKE2s commands -/

/-- A context opened with a key of KEYLEN bytes: its buffer holds the key and zeros (R175). -/
theorem ctxInit_eq {outlen keylen : BitVec 6} {key : List Byte} (hlen : key.length = keylen.toNat)
    (hle : keylen.toNat ≤ 64) :
    ∃ buf, ctxInit outlen keylen key =
        { ctxFresh outlen keylen with buf := buf, buflen := if keylen = 0 then 0 else 64 } ∧
      ∀ k (hk : k < 128), buf[k] = key.getD k 0 := by
  by_cases hkey : keylen = 0
  · subst hkey
    obtain rfl := List.length_eq_zero_iff.mp hlen
    exact ⟨Vector.replicate 128 0, rfl, fun k hk => by simp⟩
  · refine ⟨_, (ctxInit_of_key hkey hlen hle).trans (by rw [if_neg hkey]), fun k hk => ?_⟩
    rw [getElem_storeBuf, length_keyBlock (by omega), Nat.sub_zero, getD_keyBlock]
    split
    case isTrue => rfl
    case isFalse => simp [List.getElem?_eq_none (show key.length ≤ k by omega)]

/-- The first parameter word, KEYLEN above OUTLEN (R174). -/
theorem paramInit_zero (outlen keylen : BitVec 6) :
    (paramInit outlen keylen)[0] =
      0x6A09E667 ^^^ (0x01010000 ||| (keylen.setWidth 32 <<< 8) ||| outlen.setWidth 32) := by
  have hword : (0x01#8 ++ 0x01#8 ++ keylen.setWidth 8 ++ outlen.setWidth 8 : Word) =
      0x01010000 ||| (keylen.setWidth 32 <<< 8) ||| outlen.setWidth 32 := by
    refine BitVec.eq_of_getLsbD_eq fun j hj => ?_
    interval_cases j <;> simp only [BitVec.getLsbD_append] <;> simp
  rw [← hword]
  rfl

/-- Settles O36: a context without a key is the fresh one, a context with a key holds its padded block. -/
theorem b2sInitResult : Obligations.B2sInitResult := by
  intro s keylen outlen ⟨hwf, hundisturbed⟩ hlegal hfits
  have hfirst : firstError (checksOf (.b2sInit keylen outlen) s) = none := by
    simp [checksOf, checkLengths_passes hlegal, inRange_region_iff, hfits]
  obtain ⟨buf, hopen, hbuf⟩ := ctxInit_eq (outlen := outlen) (length_readBytes s.mem s.arg1.toNat keylen.toNat)
    (by omega)
  refine ⟨_, exec_of_firstError_eq_none hfirst hundisturbed, ?_⟩
  rw [hopen]
  refine ⟨paramInit_zero outlen keylen, fun k hk => ?_, rfl, rfl, rfl, fun k => ?_, rfl, rfl, rfl, rfl⟩
  · exact Vector.getElem_set_ne (by decide) k.isLt (fun h => hk (Fin.ext h.symm))
  · rw [Fin.getElem_fin, hbuf]
    split
    case isTrue hin => exact getD_readBytes _ _ hin
    case isFalse hout => simp [Memory.readBytes, hout]

/-- Settles O37: the bytes of the operand are appended, and a string that fits is only buffered. -/
theorem b2sUpdateResult : Obligations.B2sUpdateResult := by
  intro s hquiet hopen hfits
  refine ⟨exec_of_updateReady ⟨hquiet, hopen, hfits⟩, fun hroom => ?_⟩
  refine ⟨_, (ctxUpdate_of_room (by simpa using hroom)).trans (by rw [length_readBytes]), fun k => ?_⟩
  rw [Fin.getElem_fin, getElem_storeBuf, length_readBytes]
  split
  case isTrue hin => rw [getD_readBytes _ _ (by omega)]
  case isFalse => rfl

theorem getD_leBytes (ws : List Word) (k : Nat) :
    (leBytes ws).getD k 0 = (ws.getD (k / 4) 0).extractLsb' (8 * (k % 4)) 8 := by
  induction ws generalizing k with
  | nil => simp [leBytes]
  | cons w ws ih =>
    rw [leBytes_cons]
    by_cases hk : k < 4
    · rw [List.getD_append _ _ _ _ (by simpa using hk), Nat.div_eq_of_lt hk, Nat.mod_eq_of_lt hk, List.getD_cons_zero]
      interval_cases k <;> rfl
    · obtain ⟨j, rfl⟩ := Nat.exists_eq_add_of_le' (Nat.le_of_not_lt hk)
      rw [List.getD_append_right _ _ _ _ (by simp), length_wordBytes, Nat.add_sub_cancel, ih,
        Nat.add_div_right _ (by decide), Nat.add_mod_right, List.getD_cons_succ]

/-- Settles O39: the context is closed by its law, and the digest bytes are read off the words of H. -/
theorem b2sFinalResult : Obligations.B2sFinalResult := by
  rintro s ⟨hwf, hundisturbed⟩ ⟨hbuflen, houtlen, -, -⟩ hopen hfits
  have hfirst : firstError (checksOf .b2sFinal s) = none := by
    simp [checksOf, hopen, inRange_region_iff, hfits]
  have hfinal := ctxFinal_of_le hbuflen
  refine ⟨ctxFinal s.ctx, _, exec_of_firstError_eq_none hfirst hundisturbed, ?_, ?_, ?_, ?_, ?_, ctxFinal_outlen _, ?_,
    ?_, fun k => ?_, fun k hk => ?_, effectOf_sameOutside .b2sFinal hwf⟩
  case refine_9 =>
    rw [read_writeBytes _ hwf, length_digest, ctxFinal_outlen, if_pos (by omega),
      Nat.add_sub_cancel_left, digest, ctxFinal_outlen, ← getD_leBytes]
    simp [List.getElem?_take_of_lt hk]
  all_goals rw [hfinal]
  case refine_2 => rw [take_zeroBufFrom hbuflen]
  case refine_8 => exact getElem_zeroBufFrom _ _ _ _
  all_goals rfl

/-- Settles O40: the block in range is the one check. -/
theorem b2sCompressResult : Obligations.B2sCompressResult := by
  intro s ⟨_, hundisturbed⟩ hfits
  have hfirst : firstError (checksOf .b2sCompress s) = none := by
    simp [checksOf, inRange_region_iff, hfits]
  exact exec_of_firstError_eq_none hfirst hundisturbed

/-- Settles O41: the digest has OUTLEN bytes and is written at ARG0. -/
theorem b2sHashResult : Obligations.B2sHashResult := by
  intro s keylen outlen ⟨hwf, hundisturbed⟩ hlegal hfits0 hfits1 hfits2
  have hfirst : firstError (checksOf (.b2sHash keylen outlen) s) = none := by
    simp [checksOf, checkLengths_passes hlegal, inRange_region_iff, hfits0, hfits1, hfits2]
  have houtlen := hlegal.2.1
  exact ⟨_, exec_of_firstError_eq_none hfirst hundisturbed,
    readBytes_writeBytes_of_length hwf _ (by rw [length_keyedHash]; omega),
    effectOf_sameOutside (.b2sHash keylen outlen) hwf⟩

/-- Settles O53: each command is one compression of its block, under the T and F0 of its turn. -/
theorem prfByRawCompressions : Obligations.PrfByRawCompressions := by
  intro s key msg a b hquiet hkey hmsg hfitsA hfitsB hblock hmessage hh ht hf0 hf1
  refine ⟨_, _, b2sCompressResult { s with arg1 := a } hquiet hfitsA, b2sCompressResult _ hquiet hfitsB, ?_⟩
  simp only [complete_ctx, complete_mem, hblock, hmessage, hh, ht, hf0, hf1, prf]

/-! ### FASTKDF and BLKMIX -/

/-- Settles O42: the derived string has OLEN bytes and is written at ARG0. -/
theorem fastkdfResult : Obligations.FastkdfResult := by
  intro s olenm1 slenm1 ⟨hwf, hundisturbed⟩ hfits0 hfits1 hfits2
  have hfirst : firstError (checksOf (.fastkdf olenm1 slenm1) s) = none := by
    simp [checksOf, olenOf, slenOf, inRange_region_iff, hfits0, hfits1, hfits2]
  exact ⟨_, exec_of_firstError_eq_none hfirst hundisturbed,
    readBytes_writeBytes_of_length hwf _ (length_fastKdf ..),
    effectOf_sameOutside (.fastkdf olenm1 slenm1) hwf⟩

/-- Settles O43: the mixed chain is as long as its region and is written there. -/
theorem blkmixResult : Obligations.BlkmixResult := by
  rintro s rexp c rounds _ ⟨hwf, hundisturbed⟩ rfl hrounds hr halign hfits
  have hfirst : firstError (checksOf (.blkmix rexp c rounds) s) = none := by
    simp [checksOf, checkRounds_passes hrounds, not_lt.mpr hr, halign, xRegion, chainLen, chainR, inRange_region_iff,
      hfits]
  exact ⟨_, exec_of_firstError_eq_none hfirst hundisturbed,
    readBytes_writeBytes_of_length hwf _ (length_bytesOfChain_of_chain (length_blockMix ..)),
    effectOf_sameOutside (.blkmix rexp c rounds) hwf⟩

end Sys2Proof.Machine

/-! The host's side: what a register write does to each register, what the host reads, reset, and the host's moves
(spec 10_state.md R21 to R41, 70_reset_and_hazards.md R310 to R320). -/

namespace Sys2Proof.Machine

/-! ### The register map -/

/-- The registers that keep their value while a command runs (R27). -/
def Reg.heldWhileBusy : Reg → Bool
  | .cmd | .arg0 | .arg1 | .arg2 | .arg3 | .h _ | .t0 | .t1 | .f0 | .f1 => true
  | .status | .errcode | .b2scfg | .reserved => false

theorem heldWhileBusy_regAt : ∀ offset : BitVec 6,
    (regAt offset).heldWhileBusy = true ↔ offset = 0 ∨ 4 ≤ offset.toNat ∧ offset.toNat ≤ 19 := by
  decide

theorem regAt_eq_cmd_iff : ∀ offset : BitVec 6, regAt offset = .cmd ↔ offset = 0 := by decide

theorem regAt_eq_status_iff : ∀ offset : BitVec 6, regAt offset = .status ↔ offset = 1 := by decide

theorem regAt_eq_reserved_of : ∀ offset : BitVec 6, offset = 3 ∨ 21 ≤ offset.toNat → regAt offset = .reserved := by
  decide

theorem regAt_h : ∀ k : Fin 8, regAt (BitVec.ofNat 6 (8 + k.val)) = .h k := by decide

/-- The word offset of a register (R21). -/
def Reg.offset : Reg → BitVec 6
  | .cmd => 0
  | .status => 1
  | .errcode => 2
  | .arg0 => 4
  | .arg1 => 5
  | .arg2 => 6
  | .arg3 => 7
  | .h k => BitVec.ofNat 6 (8 + k.val)
  | .t0 => 16
  | .t1 => 17
  | .f0 => 18
  | .f1 => 19
  | .b2scfg => 20
  | .reserved => 3

/-- No register stands at two offsets (R21). -/
theorem offset_regAt : ∀ offset : BitVec 6, regAt offset ≠ .reserved → (regAt offset).offset = offset := by
  decide

theorem regAt_ne {offset other : BitVec 6} (hreg : regAt offset ≠ .reserved) (hne : other ≠ offset) :
    regAt other ≠ regAt offset := by
  intro hsame
  rw [← offset_regAt offset hreg, ← hsame, offset_regAt other (hsame ▸ hreg)] at hne
  exact hne rfl

/-! ### Register writes -/

/-- Settles O17: both ports look at `rst` first. -/
theorem resetBlocksTheRegisterPort : Obligations.ResetBlocksTheRegisterPort := fun _ _ _ hrst =>
  ⟨if_pos hrst, if_pos hrst⟩

theorem writeReg_of_busy {r : Reg} {s : State} (hheld : r.heldWhileBusy = true) (hrst : s.rst = false)
    (hbusy : s.status.busy = true) (v : Word) : writeReg r v s = loseWrite s := by
  cases r <;> simp_all [writeReg, writeIdle, Reg.heldWhileBusy]

/-- Settles O11: the offsets of R27's list are the registers that a running command holds. -/
theorem busyWritesOnlySetLost : Obligations.BusyWritesOnlySetLost := fun _ offset v hrst hbusy hoffset =>
  writeReg_of_busy ((heldWhileBusy_regAt offset).mpr hoffset) hrst hbusy v

theorem writeReg_status {s : State} (hrst : s.rst = false) (v : Word) :
    writeReg .status v s = { s with status := s.status.writeOneToClear v } := by
  simp [writeReg, hrst]

/-- A word written to CMD while idle is accepted (R23). -/
theorem writeReg_cmd_of_idle {s : State} (hrst : s.rst = false) (hidle : s.status.busy = false) (w : Word) :
    writeReg .cmd w s = accept w s := by
  simp [writeReg, writeIdle, hrst, hidle]

/-- A field of one bit is its bit. -/
theorem extractLsb'_one_eq_one_iff (v : Word) (k : Nat) : v.extractLsb' k 1 = 1 ↔ v.getLsbD k = true := by
  constructor
  · intro h
    have hbit : (v.extractLsb' k 1).getLsbD 0 = true := by rw [h]; rfl
    simpa only [BitVec.getLsbD_extractLsb', Nat.lt_one_iff, decide_true, Bool.true_and, Nat.add_zero] using hbit
  · intro h
    refine BitVec.eq_of_getLsbD_eq fun j hj => ?_
    obtain rfl : j = 0 := by omega
    rw [BitVec.getLsbD_extractLsb', Nat.add_zero, h]
    rfl

/-- Settles O13: a bit set clears its flag, a bit clear keeps it. -/
theorem statusWriteClearsOnlyStickyBits : Obligations.StatusWriteClearsOnlyStickyBits := by
  intro s v hrst
  have hbit : ∀ k (b : Bool), (b && !v.getLsbD k) = if v.extractLsb' k 1 = 1 then false else b := by
    intro k b
    by_cases hv : v.getLsbD k = true
    · rw [if_pos ((extractLsb'_one_eq_one_iff v k).mpr hv), hv, Bool.not_true, Bool.and_false]
    · rw [if_neg (mt (extractLsb'_one_eq_one_iff v k).mp hv), Bool.eq_false_iff.mpr hv, Bool.not_false, Bool.and_true]
  rw [writeReg_status hrst, Status.writeOneToClear, hbit, hbit]

@[simp] theorem t0Word_setT0 (v : Word) (t : BitVec 64) : t0Word (setT0 v t) = v := BitVec.extractLsb'_append_eq_right

@[simp] theorem t1Word_setT0 (v : Word) (t : BitVec 64) : t1Word (setT0 v t) = t1Word t :=
  BitVec.extractLsb'_append_eq_left

@[simp] theorem t0Word_setT1 (v : Word) (t : BitVec 64) : t0Word (setT1 v t) = t0Word t :=
  BitVec.extractLsb'_append_eq_right

@[simp] theorem t1Word_setT1 (v : Word) (t : BitVec 64) : t1Word (setT1 v t) = v := BitVec.extractLsb'_append_eq_left

section

variable {r : Reg} {s : State} (hheld : r.heldWhileBusy = true) (hcmd : r ≠ .cmd) (hrst : s.rst = false)
  (hidle : s.status.busy = false)

include hheld hcmd hrst hidle

/-- What a write can change while idle, CMD apart: the operands, and H, T and F of the context. -/
theorem writeReg_idle (v : Word) :
    ∃ a0 a1 a2 a3 h t f0 f1, writeReg r v s =
      { s with
        arg0 := a0
        arg1 := a1
        arg2 := a2
        arg3 := a3
        ctx := { s.ctx with h := h, t := t, f0 := f0, f1 := f1 } } := by
  cases r
  case cmd => exact absurd rfl hcmd
  case status | errcode | b2scfg | reserved => cases hheld
  all_goals exact ⟨_, _, _, _, _, _, _, _, by simp only [writeReg, writeIdle, hrst, hidle]; rfl⟩

/-- The register written reads back. -/
theorem regValue_writeReg_same (v : Word) : regValue r (writeReg r v s) = v := by
  cases r
  case cmd => exact absurd rfl hcmd
  case status | errcode | b2scfg | reserved => cases hheld
  all_goals simp [writeReg, writeIdle, regValue, hrst, hidle]

/-- No other register changes: no two registers share a field but the words of H and the halves of T. -/
theorem regValue_writeReg_other (v : Word) {q : Reg} (hne : q ≠ r) :
    regValue q (writeReg r v s) = regValue q s := by
  cases r
  case cmd => exact absurd rfl hcmd
  case status | errcode | b2scfg | reserved => cases hheld
  all_goals simp only [writeReg, writeIdle, hrst, hidle, Bool.false_eq_true, if_false]
  case arg0 | arg1 | arg2 | arg3 | t0 | t1 | f0 | f1 => cases q <;> simp_all [regValue, b2scfgWord]
  case h k =>
    cases q
    case h j =>
      have hindex : k.val ≠ j.val := fun h => hne (congrArg Reg.h (Fin.ext h.symm))
      simp [regValue, hindex]
    all_goals rfl

end

/-- Settles O14: the offset names a register a running command holds, and no other offset names it. -/
theorem idleRegisterWriteReadsBack : Obligations.IdleRegisterWriteReadsBack := by
  intro s offset other v hrst hidle hlo hhi
  have hheld : (regAt offset).heldWhileBusy = true := (heldWhileBusy_regAt offset).mpr (.inr ⟨hlo, hhi⟩)
  have hcmd : regAt offset ≠ .cmd := fun h => by
    rw [(regAt_eq_cmd_iff offset).mp h] at hlo
    cases hlo
  have hmapped : regAt offset ≠ .reserved := fun h => by
    rw [h] at hheld
    cases hheld
  exact ⟨regValue_writeReg_same hheld hcmd hrst hidle v,
    fun hne => regValue_writeReg_other hheld hcmd hrst hidle v (regAt_ne hmapped hne),
    writeReg_idle hheld hcmd hrst hidle v⟩

/-! ### Register reads -/

theorem readReg_regRdata_of_idle {s : State} (hrst : s.rst = false) (hidle : s.status.busy = false) (r : Reg) :
    (readReg r s).regRdata = regValue r s := by
  simp [readReg, hrst, hidle]

theorem readReg_regRdata_of_held {r : Reg} {s : State} (hrst : s.rst = false) (hr : r.ofContext = false) :
    (readReg r s).regRdata = regValue r s := by
  simp [readReg, hrst, hr]

/-- STATUS as a number: each flag at its bit (R24). -/
theorem toNat_status_word (f : Status) :
    f.word.toNat = (if f.busy then 1 else 0) + (if f.done then 2 else 0) + (if f.err then 4 else 0) +
      (if f.anyerr then 8 else 0) + (if f.lost then 16 else 0) := by
  obtain ⟨busy, done, err, anyerr, lost⟩ := f
  cases busy <;> cases done <;> cases err <;> cases anyerr <;> cases lost <;> rfl

/-- B2SCFG as a number: each field at its bits (R35). -/
theorem toNat_b2scfgWord {c : Ctx} (h : c.buflen ≤ 128) :
    (b2scfgWord c).toNat = c.outlen.toNat + c.keylen.toNat * 2 ^ 8 + c.buflen * 2 ^ 16 +
      (if c.valid then 2 ^ 24 else 0) := by
  have hbuflen : (BitVec.ofNat 8 c.buflen).toNat = c.buflen := Nat.mod_eq_of_lt (by omega)
  rw [b2scfgWord]
  simp only [toNat_append_eq_add, hbuflen]
  cases c.valid <;> simp <;> omega

theorem toNat_t0Word (t : BitVec 64) : (t0Word t).toNat = t.toNat % 2 ^ 32 := by
  simp [t0Word]

theorem toNat_t1Word (t : BitVec 64) : (t1Word t).toNat = t.toNat / 2 ^ 32 := by
  simp [t1Word]
  omega

/-- Settles O12: a read returns the value held, of a context register only while idle, and the words of STATUS,
ERRCODE, T and B2SCFG have their fields at their bits. -/
theorem readsGiveTheRegisterValues : Obligations.ReadsGiveTheRegisterValues := by
  intro s hrst read
  refine ⟨fun hflags hbusy => ?_, fun hidle hbuflen => ?_, fun offset hoffset => ?_⟩
  · have hread : ∀ offset, (regAt offset).ofContext = false → read offset = regValue (regAt offset) s :=
      fun _ hr => readReg_regRdata_of_held hrst hr
    obtain ⟨hdone, herr⟩ := hflags.1 hbusy
    have herrcode : errcodeWord s.errcode = 0 := by
      rw [errcode_eq_none_of_busy hflags hbusy]
      rfl
    have hstatus :
        s.status.word.toNat = 1 + (if s.status.anyerr then 8 else 0) + (if s.status.lost then 16 else 0) := by
      simp [toNat_status_word, hbusy, hdone, herr]
    exact ⟨hread 0 rfl, hread 4 rfl, hread 5 rfl, hread 6 rfl, hread 7 rfl, (hread 2 rfl).trans herrcode,
      (congrArg BitVec.toNat (hread 1 rfl)).trans hstatus⟩
  · have hread : ∀ offset, read offset = regValue (regAt offset) s := fun _ => readReg_regRdata_of_idle hrst hidle _
    have hstatus : s.status.word.toNat = (if s.status.done then 2 else 0) + (if s.status.err then 4 else 0) +
        (if s.status.anyerr then 8 else 0) + (if s.status.lost then 16 else 0) := by
      simp [toNat_status_word, hidle]
    simp only [hread]
    refine ⟨rfl, rfl, rfl, rfl, rfl, hstatus, ?_, fun k => ?_, toNat_t0Word _, toNat_t1Word _, rfl, rfl,
      toNat_b2scfgWord hbuflen⟩
    · change (errcodeWord s.errcode).toNat = _
      cases s.errcode <;> rfl
    · rw [regAt_h]
      rfl
  · have hreserved := regAt_eq_reserved_of offset hoffset
    exact (readReg_regRdata_of_held hrst (by rw [hreserved]; rfl)).trans (by rw [hreserved]; rfl)

/-! ### Reset -/

/-- Every register reads 0 of the reset values (R41). -/
theorem regValue_resetWith (cfg : Params) (r : Reg) : regValue r (State.resetWith cfg) = 0 := by
  cases r with
  | status =>
    change Status.word ⟨false, false, false, false, false⟩ = 0
    decide
  | errcode =>
    change errcodeWord .none = 0
    decide
  | t1 =>
    change t1Word 0 = 0
    decide
  | b2scfg =>
    change b2scfgWord Ctx.reset = 0
    decide
  | h k => exact Vector.getElem_replicate _
  | _ => rfl

/-- Settles O15: the three states hold the reset values, and each register reads 0 of them. -/
theorem resetGivesTheResetValues : Obligations.ResetGivesTheResetValues := by
  intro s offset t ht
  obtain ⟨cfg, m, rst, rd, md, host, n, rfl⟩ : ∃ cfg m rst rd md host n, t =
      { State.resetWith cfg with
        mem := m, rst := rst, regRdata := rd, memRdata := md, host := host, freeCtr := n } := by
    simp only [List.mem_cons, List.not_mem_nil, or_false] at ht
    rcases ht with rfl | rfl | rfl <;> exact ⟨_, _, _, _, _, _, _, rfl⟩
  refine ⟨?_, rfl, rfl, rfl, rfl, rfl⟩
  rw [← regValue_resetWith cfg (regAt offset)]
  cases regAt offset <;> rfl

/-! ### The host's moves -/

theorem step_of_hostTurn {s : State} (h : coreTurn s = false) : step s = hostTurn s := by
  simp [step, h]

theorem hostTurn_cons {s : State} {a : HostAction} {rest : List HostAction} (h : s.host = a :: rest) :
    hostTurn s = hostMove a { s with host := rest, latency := s.latency - 1 } := by
  simp [hostTurn, h]

/-- Settles O20: an idle core has no turn, and a host without moves takes none. -/
theorem idleCoreDoesNothing : Obligations.IdleCoreDoesNothing := by
  intro s hidle hhost
  have hturn : coreTurn s = false := by simp [coreTurn, hidle]
  rw [step_of_hostTurn hturn, hostTurn, hhost]

/-- Settles O19: both memory accesses compare their address with `MEM_SIZE`. -/
theorem hostAccessOutsideMemoryStops : Obligations.HostAccessOutsideMemoryStops := by
  intro s a v rest hturn haddr hhost
  rw [step_of_hostTurn hturn]
  obtain hhost | hhost := hhost
  · rw [hostTurn_cons hhost]
    exact if_neg (Nat.not_lt.mpr haddr)
  · rw [hostTurn_cons hhost]
    exact if_neg (Nat.not_lt.mpr haddr)

/-- A byte outside the running command's write set reads as stored (R320). -/
theorem hostMemRead_of_outside {s : State} {a : Word} (h : inRegions (runningWriteSet s) a.toNat = false) :
    hostMemRead a s = { s with memRdata := s.mem.read a.toNat } := by
  simp [hostMemRead, h]

/-- Settles O18: the host's turn takes its first move, and the two memory accesses are read off their definitions. -/
theorem hostMovesAndMemoryAccesses : Obligations.HostMovesAndMemoryAccesses := by
  refine ⟨fun s a rest hturn hhost => ?_, fun s a v hwf => ⟨hostMemRead_frame a s, fun hread => ?_, ?_⟩⟩
  · have hstep := (step_of_hostTurn hturn).trans (hostTurn_cons hhost)
    cases a with
    | wr offset v => exact hstep
    | rd offset => exact hstep
    | memWr address v => exact fun haddr => hstep.trans (if_pos haddr)
    | memRd address => exact fun haddr => hstep.trans (if_pos haddr)
    | wait => exact hstep
    | abortOnErr => exact hstep.trans (congrArg _ (readOutcome_eq _))
    | rst level => exact hstep
  · refine hostMemRead_of_outside ?_
    obtain hidle | houtside := hread
    · rw [runningWriteSet_of_idle hidle]
      rfl
    · exact houtside
  · refine ⟨_, rfl, fun b => ?_⟩
    cases hbusy : s.status.busy
    · simp [read_write _ hwf]
    · simp

/-- Settles O9: the move is the acceptance, and the accepted word runs because the host yields. -/
theorem acceptedWordRunsNext : Obligations.AcceptedWordRunsNext := by
  intro s v rest hrst hidle hhost
  have hturn : coreTurn s = false := by simp [coreTurn, hidle]
  have haccept : step s = .next (accept v { s with host := rest, latency := s.latency - 1 }) := by
    rw [step_of_hostTurn hturn, hostTurn_cons hhost]
    exact congrArg Host.Outcome.next (writeReg_cmd_of_idle (by exact hrst) (by exact hidle) v)
  refine ⟨_, _, _, haccept, rfl, ?_⟩
  rintro hyields i rfl
  refine stepRunsTheDecodedCommand _ i ?_ (decodeOfEncodeIsTheCommand i)
  simp [coreTurn, hrst, hyields]

end Sys2Proof.Machine

/-! Steps: what a command keeps, what a host move can do, and the invariant every step keeps (spec 10_state.md R28 to
R36, 60_exceptions.md, 70_reset_and_hazards.md R310, R320). -/

namespace Sys2Proof.Machine

/-! ### What a command keeps -/

theorem disturb_ctx (i : Instr) (s t : State) :
    (disturb i s t).ctx = if s.disturbed then scrambleCtx (s.freeCtr + 1) i s t.ctx else t.ctx := by
  unfold disturb
  split <;> rfl

/-- Free values reach H and the buffer alone (log 4). -/
theorem scrambleCtx_frame (n : Nat) (i : Instr) (s : State) (c : Ctx) :
    ∃ h buf, scrambleCtx n i s c = { c with h := h, buf := buf } := by
  cases i
  case b2sUpdate =>
    rw [scrambleCtx]
    split
    · exact ⟨_, _, rfl⟩
    · exact ⟨_, _, rfl⟩
  all_goals exact ⟨_, _, rfl⟩

/-- A disturbed command changes H and the buffer of the context its effect left. -/
theorem disturb_ctx_frame (i : Instr) (s t : State) :
    ∃ h buf, (disturb i s t).ctx = { t.ctx with h := h, buf := buf } := by
  rw [disturb_ctx]
  split
  · exact scrambleCtx_frame _ i s _
  · exact ⟨_, _, rfl⟩

section

variable {i : Instr} (hinit : ∀ k o, i ≠ .b2sInit k o) (hupdate : i ≠ .b2sUpdate) (hfinal : i ≠ .b2sFinal)
  (hcompress : i ≠ .b2sCompress)

include hinit hupdate hfinal hcompress

/-- Only four commands have an effect on the context (R39). -/
theorem effectOf_ctx (s : State) : (effectOf i s).ctx = s.ctx := by
  cases i
  case b2sInit k o => exact absurd rfl (hinit k o)
  case b2sUpdate => exact absurd rfl hupdate
  case b2sFinal => exact absurd rfl hfinal
  case b2sCompress => exact absurd rfl hcompress
  all_goals simp only [effectOf, copyEffect, eraseEffect, xorEffect, swapEffect, permuteBlock, b2sHashEffect,
    fastkdfEffect, blkmixEffect, smixEffect]

/-- Nor does a disturbance make it free. -/
theorem ctx_disturb_effectOf (s : State) : (disturb i s (effectOf i s)).ctx = s.ctx := by
  have hscramble : scrambleCtx (s.freeCtr + 1) i s s.ctx = s.ctx := by
    cases i
    case b2sInit k o => exact absurd rfl (hinit k o)
    case b2sUpdate => exact absurd rfl hupdate
    case b2sCompress => exact absurd rfl hcompress
    all_goals rfl
  rw [disturb_ctx, effectOf_ctx hinit hupdate hfinal hcompress, hscramble, ite_self]

end

/-- Settles O46: an error writes no register beside STATUS and ERRCODE, an effect writes memory and the context, and a
disturbed command memory, H and the buffer. -/
theorem commandsKeepTheOtherRegisters : Obligations.CommandsKeepTheOtherRegisters := by
  intro i s t hexec
  obtain ⟨c, -, rfl⟩ | ⟨-, rfl⟩ := exec_cases i s t hexec
  · exact ⟨by simp, fun _ _ _ _ => rfl, fun _ => ⟨_, rfl⟩, fun _ => ⟨_, _, _, _, rfl⟩⟩
  · refine ⟨by simp, fun hinit hupdate hfinal hcompress => ctx_disturb_effectOf hinit hupdate hfinal hcompress s,
      ?_, ?_⟩
    · rintro rfl
      rw [complete_ctx, disturb_ctx]
      split
      · exact ⟨_, rfl⟩
      · exact ⟨_, rfl⟩
    · rintro rfl
      obtain ⟨h, buf, hctx⟩ := disturb_ctx_frame .b2sUpdate s (effectOf .b2sUpdate s)
      obtain ⟨_, t, _, n, hupdate⟩ := ctxUpdate_frame s.ctx (s.mem.readBytes s.arg1.toNat s.arg3.toNat)
      have heffect : (effectOf .b2sUpdate s).ctx = _ := hupdate
      exact ⟨h, t, buf, n, by rw [complete_ctx, hctx, heffect]⟩

theorem exec_wf {i : Instr} {s t : State} (hwf : s.mem.wf) (hexec : exec i s = .next t) : t.mem.wf := by
  obtain ⟨c, -, rfl⟩ | ⟨-, rfl⟩ := exec_cases i s t hexec
  · exact hwf
  · rw [complete_mem, disturb_mem]
    split
    · exact scramble_wf _ _ _ (effectOf_wf i s hwf)
    · exact effectOf_wf i s hwf

theorem exec_disturbed {i : Instr} {s t : State} (hexec : exec i s = .next t) : t.disturbed = s.disturbed := by
  obtain ⟨c, -, rfl⟩ | ⟨-, rfl⟩ := exec_cases i s t hexec
  · rfl
  · simp

/-! ### What a host move can do -/

/-- Everything a register write can do. -/
theorem writeReg_cases (r : Reg) (v : Word) (s : State) :
    writeReg r v s = s ∨
      s.rst = false ∧
        (r = .status ∧ writeReg r v s = { s with status := s.status.writeOneToClear v } ∨
          r.heldWhileBusy = true ∧ s.status.busy = true ∧ writeReg r v s = loseWrite s ∨
          r = .cmd ∧ s.status.busy = false ∧ writeReg r v s = accept v s ∨
          ∃ a0 a1 a2 a3 h t f0 f1, writeReg r v s =
            { s with
              arg0 := a0
              arg1 := a1
              arg2 := a2
              arg3 := a3
              ctx := { s.ctx with h := h, t := t, f0 := f0, f1 := f1 } }) := by
  obtain hrst | hrst := Bool.eq_false_or_eq_true s.rst
  · exact .inl (if_pos hrst)
  · refine or_iff_not_imp_left.mpr fun hchanged => ⟨hrst, ?_⟩
    by_cases hheld : r.heldWhileBusy = true
    · obtain hbusy | hidle := Bool.eq_false_or_eq_true s.status.busy
      · exact .inr (.inl ⟨hheld, hbusy, writeReg_of_busy hheld hrst hbusy v⟩)
      · by_cases hcmd : r = .cmd
        · subst hcmd
          exact .inr (.inr (.inl ⟨rfl, hidle, writeReg_cmd_of_idle hrst hidle v⟩))
        · exact .inr (.inr (.inr (writeReg_idle hheld hcmd hrst hidle v)))
    · cases r
      case status => exact .inl ⟨rfl, writeReg_status hrst v⟩
      case errcode => exact absurd (writeReg_errcode v s) hchanged
      case b2scfg => exact absurd (writeReg_b2scfg v s) hchanged
      case reserved => exact absurd (writeReg_reserved v s) hchanged
      all_goals exact absurd rfl hheld

theorem readOutcome_frame (s : State) :
    ∃ d n l, readOutcome s = { s with regRdata := d, freeCtr := n, host := l } := by
  obtain ⟨_, _, hstatus⟩ := readReg_frame .status s
  obtain ⟨_, _, herrcode⟩ := readReg_frame .errcode (readReg .status s)
  exact ⟨_, _, _, by rw [readOutcome_eq, herrcode, hstatus]⟩

/-- Everything a host move can do: a register write, a read (STATUS polls among them), a write of memory, a level of
`rst`. -/
theorem hostMove_cases {a : HostAction} {s t : State} (h : hostMove a s = .next t) :
    (∃ offset v, a = .wr offset v ∧ t = writeReg (regAt offset) v s) ∨
      ((∀ offset v, a ≠ .wr offset v) ∧ (∀ level, a ≠ .rst level) ∧
        ∃ d b n l, t = { s with regRdata := d, memRdata := b, freeCtr := n, host := l }) ∨
      (∃ address v, a = .memWr address v ∧ address.toNat < s.cfg.memSize ∧ t = hostMemWrite address v s) ∨
      ∃ level, a = .rst level ∧ t = driveReset level s := by
  cases a with
  | wr offset v =>
    cases h
    exact .inl ⟨offset, v, rfl, rfl⟩
  | rd offset =>
    cases h
    obtain ⟨d, n, hread⟩ := readReg_frame (regAt offset) s
    exact .inr (.inl ⟨nofun, nofun, d, _, n, _, hread⟩)
  | memWr address v =>
    by_cases haddr : address.toNat < s.cfg.memSize
    · cases (if_pos haddr).symm.trans h
      exact .inr (.inr (.inl ⟨address, v, rfl, haddr, rfl⟩))
    · cases (if_neg haddr).symm.trans h
  | memRd address =>
    by_cases haddr : address.toNat < s.cfg.memSize
    · cases (if_pos haddr).symm.trans h
      obtain ⟨b, n, hread⟩ := hostMemRead_frame address s
      exact .inr (.inl ⟨nofun, nofun, _, b, n, _, hread⟩)
    · cases (if_neg haddr).symm.trans h
  | wait =>
    cases h
    obtain ⟨d, n, hread⟩ := readReg_frame .status s
    exact .inr (.inl ⟨nofun, nofun, d, _, n, _, hread⟩)
  | abortOnErr =>
    cases h
    obtain ⟨d, n, l, hread⟩ := readOutcome_frame s
    exact .inr (.inl ⟨nofun, nofun, d, _, n, l, hread⟩)
  | rst level =>
    cases h
    exact .inr (.inr (.inr ⟨level, rfl, rfl⟩))

/-- Everything a step can do: a command, a word that selects none, no move, or the host's next move. -/
theorem step_next_cases {s t : State} (h : step s = .next t) :
    (∃ i, coreTurn s = true ∧ decode s.cmd = .ok i ∧ exec i s = .next t) ∨
      (∃ e, coreTurn s = true ∧ decode s.cmd = .error e ∧ t = raiseError (decodeErrorCode e) s) ∨
      (coreTurn s = false ∧ s.host = [] ∧ t = s) ∨
      ∃ a rest, coreTurn s = false ∧ s.host = a :: rest ∧
        hostMove a { s with host := rest, latency := s.latency - 1 } = .next t := by
  obtain ⟨i, hturn, hdec, hstep⟩ | ⟨e, hturn, hdec, hstep⟩ | ⟨hturn, hstep⟩ := step_cases s
  · exact .inl ⟨i, hturn, hdec, hstep ▸ h⟩
  · cases hstep.symm.trans h
    exact .inr (.inl ⟨e, hturn, hdec, rfl⟩)
  · rw [hstep] at h
    cases hhost : s.host with
    | nil =>
      rw [hostTurn, hhost] at h
      cases h
      exact .inr (.inr (.inl ⟨hturn, rfl, rfl⟩))
    | cons a rest => exact .inr (.inr (.inr ⟨a, rest, hturn, rfl, hostTurn_cons hhost ▸ h⟩))

end Sys2Proof.Machine

/-! What every step keeps: the premise of the results under a host that keeps its duty, STATUS, and the invariant (spec
10_state.md R24 to R36, 70_reset_and_hazards.md R310, R320). -/

namespace Sys2Proof.Machine

/-! ### A host that keeps its duty -/

/-- Such a host writes no register that a running command holds (R320). -/
theorem heldWhileBusy_of_keepsDuty {s : State} {offset : BitVec 6} {v : Word} {rest : List HostAction}
    (hhost : s.host = .wr offset v :: rest) (hduty : keepsDuty s = true) (hbusy : s.status.busy = true) :
    (regAt offset).heldWhileBusy = false := by
  simp only [keepsDuty, hbusy, hhost, if_true, List.contains_iff_mem, List.mem_cons, List.not_mem_nil,
    or_false] at hduty
  rcases hduty with hreg | hreg | hreg | hreg <;> rw [hreg] <;> rfl

/-- Settles O21: of the host's moves only a write of memory disturbs a command and only an ignored write sets LOST, and
the duty forbids both while BUSY. -/
theorem dutifulHostDisturbsNoCommand : Obligations.DutifulHostDisturbsNoCommand := by
  intro s t ⟨hwf, hundisturbed⟩ hduty hstep
  obtain ⟨i, -, -, hexec⟩ | ⟨e, -, -, rfl⟩ | ⟨-, -, rfl⟩ | ⟨a, rest, -, hhost, hmove⟩ := step_next_cases hstep
  · obtain ⟨⟨_, _, _, _, _, _, _, _, _, _, hlost, _⟩, _⟩ := commandsKeepTheOtherRegisters i s t hexec
    exact ⟨⟨exec_wf hwf hexec, (exec_disturbed hexec).trans hundisturbed⟩, hlost.trans⟩
  · exact ⟨⟨hwf, hundisturbed⟩, id⟩
  · exact ⟨⟨hwf, hundisturbed⟩, id⟩
  · obtain ⟨offset, v, rfl, rfl⟩ | ⟨-, -, d, b, n, l, rfl⟩ | ⟨address, v, rfl, -, rfl⟩ | ⟨level, rfl, rfl⟩ :=
      hostMove_cases hmove
    · obtain hwrite | ⟨-, ⟨-, hwrite⟩ | ⟨hheld, hbusy, -⟩ | ⟨-, -, hwrite⟩ | ⟨_, _, _, _, _, _, _, _, hwrite⟩⟩ :=
        writeReg_cases (regAt offset) v { s with host := rest, latency := s.latency - 1 }
      · rw [hwrite]
        exact ⟨⟨hwf, hundisturbed⟩, id⟩
      · rw [hwrite]
        exact ⟨⟨hwf, hundisturbed⟩, fun hlost => by simp [Status.writeOneToClear, hlost]⟩
      · rw [heldWhileBusy_of_keepsDuty hhost hduty hbusy] at hheld
        cases hheld
      · rw [hwrite]
        exact ⟨⟨hwf, rfl⟩, id⟩
      · rw [hwrite]
        exact ⟨⟨hwf, hundisturbed⟩, id⟩
    · exact ⟨⟨hwf, hundisturbed⟩, id⟩
    · have hidle : s.status.busy = false := by
        simpa [keepsDuty, hhost] using hduty
      exact ⟨⟨hostMemWrite_wf _ _ _ hwf, by simp [hundisturbed, hidle]⟩, id⟩
    · cases level
      · exact ⟨⟨hwf, hundisturbed⟩, id⟩
      · exact ⟨⟨scramble_wf _ _ _ hwf, rfl⟩, fun _ => rfl⟩

/-! ### STATUS -/

/-- What a register write does to STATUS (R23, R24, R27). -/
theorem writeReg_status_eq (offset : BitVec 6) (v : Word) (s : State) :
    (writeReg (regAt offset) v s).status =
      if s.rst then s.status
      else if offset = 1 then s.status.writeOneToClear v
      else if s.status.busy ∧ (offset = 0 ∨ 4 ≤ offset.toNat ∧ offset.toNat ≤ 19) then { s.status with lost := true }
      else if offset = 0 then { s.status with busy := true, done := false, err := false }
      else s.status := by
  split_ifs with hrst hstatus hlost hcmd
  · exact congrArg State.status (if_pos hrst)
  · rw [(regAt_eq_status_iff offset).mpr hstatus, writeReg_status (Bool.eq_false_iff.mpr hrst)]
  · obtain ⟨hbusy, hheld⟩ := hlost
    rw [writeReg_of_busy ((heldWhileBusy_regAt offset).mpr hheld) (Bool.eq_false_iff.mpr hrst) hbusy]
    rfl
  · have hidle : s.status.busy = false := Bool.eq_false_iff.mpr fun hbusy => hlost ⟨hbusy, .inl hcmd⟩
    rw [(regAt_eq_cmd_iff offset).mpr hcmd, writeReg_cmd_of_idle (Bool.eq_false_iff.mpr hrst) hidle]
    rfl
  · obtain hwrite | ⟨-, ⟨hreg, -⟩ | ⟨hheld, hbusy, -⟩ | ⟨hreg, -⟩ | ⟨_, _, _, _, _, _, _, _, hwrite⟩⟩ :=
      writeReg_cases (regAt offset) v s
    · rw [hwrite]
    · exact absurd ((regAt_eq_status_iff offset).mp hreg) hstatus
    · exact absurd ⟨hbusy, (heldWhileBusy_regAt offset).mp hheld⟩ hlost
    · exact absurd ((regAt_eq_cmd_iff offset).mp hreg) hcmd
    · rw [hwrite]

/-- Settles O22: each event of the list is one case of a step. -/
theorem statusChangesOnlyAsListed : Obligations.StatusChangesOnlyAsListed := by
  intro s t hstep
  obtain ⟨i, hturn, hdec, hexec⟩ | ⟨e, hturn, hdec, rfl⟩ | ⟨hturn, hhost, rfl⟩ | ⟨a, rest, hturn, hhost, hmove⟩ :=
    step_next_cases hstep
  · rw [if_pos hturn, hdec]
    obtain ⟨c, hfirst, rfl⟩ | ⟨hfirst, rfl⟩ := exec_cases i s t hexec
    · simp [hfirst]
    · simp [hfirst]
  · rw [if_pos hturn, hdec]
    rfl
  · rw [if_neg (by simp [hturn]), hhost]
  · rw [if_neg (by simp [hturn]), hhost]
    obtain ⟨offset, v, rfl, rfl⟩ | ⟨hwr, hrst, d, b, n, l, rfl⟩ | ⟨address, v, rfl, -, rfl⟩ | ⟨level, rfl, rfl⟩ :=
      hostMove_cases hmove
    · rw [writeReg_status_eq]
      dsimp only
      split_ifs <;> rfl
    · split
      case h_1 offset v _ hcons => exact absurd (List.cons.inj hcons).1 (hwr offset v)
      case h_2 hcons => exact absurd (List.cons.inj hcons).1 (hrst true)
      case h_3 => rfl
    · rfl
    · cases level
      · rfl
      · rfl

end Sys2Proof.Machine

/-! The invariant: memory within `MEM_SIZE` as a fact about reads, the context's lengths, the flags, and their keeping
by every command and every host move (spec 10_state.md R24 to R26, R34 to R36, 60_exceptions.md R281,
70_reset_and_hazards.md R310). -/

namespace Sys2Proof.Machine

/-! ### Memory -/

/-- A listed byte of a canonical memory reads as listed. -/
theorem read_of_mem {m : Memory} (hwf : m.wf) {c : Host.Cell} (hc : c ∈ m) : m.read c.1 = c.2 := by
  induction m with
  | nil => cases hc
  | cons d m ih =>
    obtain ⟨a, b⟩ := d
    obtain ⟨hbelow, -, hrest⟩ := (wf_cons a b m).mp hwf
    obtain rfl | hc := List.mem_cons.mp hc
    · exact if_pos rfl
    · rw [Memory.read, if_neg (hbelow c hc).ne', ih hrest hc]

theorem read_of_not_listed {m : Memory} {a : Nat} (h : ∀ c ∈ m, c.1 ≠ a) : m.read a = unlistedByte := by
  induction m with
  | nil => rfl
  | cons d m ih =>
    obtain ⟨hne, hrest⟩ := List.forall_mem_cons.mp h
    rw [Memory.read, if_neg hne.symm, ih hrest]

/-- A canonical memory lies within a size when every address from there on reads as unlisted. -/
theorem within_iff_read {m : Memory} (hwf : m.wf) (n : Nat) :
    m.within n ↔ ∀ a, n ≤ a → m.read a = unlistedByte := by
  refine ⟨fun h a ha => read_of_not_listed fun c hc => (Nat.lt_of_lt_of_le (h c hc) ha).ne, fun h c hc => ?_⟩
  have ⟨_, hlisted⟩ := hwf
  by_contra hout
  exact hlisted c hc (read_of_mem hwf hc ▸ h c.1 (Nat.le_of_not_lt hout))

/-- Memory that changed inside regions in range alone is within `MEM_SIZE` as before. -/
theorem within_of_sameOutside {s : State} {m : Memory} {rs : List Region} (hwf : s.mem.wf) (hm : m.wf)
    (hwithin : s.mem.within s.cfg.memSize) (hrange : ∀ r ∈ rs, inRange s r = true) (hsame : s.sameOutside m rs) :
    m.within s.cfg.memSize := by
  refine (within_iff_read hm _).mpr fun a ha => ?_
  have hout : inRegions rs a = false := by
    by_contra hin
    exact absurd (lt_memSize_of_inRegions hrange (Bool.of_not_eq_false hin)) (Nat.not_lt.mpr ha)
  rw [hsame a hout]
  exact (within_iff_read hwf _).mp hwithin a ha

/-- A command writes in range when its checks pass (R68, R235). -/
theorem writeSet_inRange {i : Instr} {s : State} (hfirst : firstError (checksOf i s) = none) :
    ∀ r ∈ writeSet i s, inRange s r = true := by
  rw [firstError_eq_none_iff] at hfirst
  cases i <;> simp only [checksOf, List.forall_mem_cons, List.not_mem_nil, IsEmpty.forall_iff, implies_true, and_true,
    checkRange_fails, checkAlloc_fails, not_not] at hfirst <;> simp [writeSet, hfirst]

/-- A running command will write in range, if it writes at all. -/
theorem runningWriteSet_inRange (s : State) : ∀ r ∈ runningWriteSet s, inRange s r = true := by
  unfold runningWriteSet
  split
  · split
    · split
      case isTrue hfirst => exact writeSet_inRange (Option.isNone_iff_eq_none.mp hfirst)
      case isFalse => nofun
    · nofun
  · nofun

/-! ### The context's lengths -/

/-- The lengths do not see H, T, F or the bytes of the buffer. -/
theorem lengthsLegal_congr {c d : Ctx} (hc : c.lengthsLegal) (hbuflen : d.buflen = c.buflen)
    (houtlen : d.outlen = c.outlen) (hkeylen : d.keylen = c.keylen) (hvalid : d.valid = c.valid) : d.lengthsLegal := by
  rwa [Ctx.lengthsLegal, hbuflen, houtlen, hkeylen, hvalid]

/-- Every effect keeps the context's lengths legal (R34, R35). -/
theorem effectOf_lengthsLegal {i : Instr} {s : State} (hfirst : firstError (checksOf i s) = none)
    (hctx : s.ctx.lengthsLegal) : (effectOf i s).ctx.lengthsLegal := by
  have ⟨hbuflen, houtlen, hkeylen, hopen⟩ := hctx
  cases i
  case b2sInit keylen outlen =>
    obtain ⟨hpos, houtlen, hkeylen⟩ := legalDigest_of_firstError_eq_none hfirst
    refine ⟨ctxInit_buflen_le .., ?_, ?_, fun _ => ?_⟩
    · rwa [effectOf, b2sInitEffect, ctxInit_outlen]
    · rwa [effectOf, b2sInitEffect, ctxInit_keylen]
    · rwa [effectOf, b2sInitEffect, ctxInit_outlen]
  case b2sUpdate =>
    refine ⟨(ctxUpdate_buflen hbuflen _).1, ?_, ?_, ?_⟩
    · rwa [effectOf, b2sUpdateEffect, ctxUpdate_outlen]
    · rwa [effectOf, b2sUpdateEffect, ctxUpdate_keylen]
    · rwa [effectOf, b2sUpdateEffect, ctxUpdate_outlen, ctxUpdate_valid]
  case b2sFinal =>
    rw [effectOf, b2sFinalEffect, ctxFinal_of_le hbuflen]
    exact ⟨hbuflen, houtlen, hkeylen, nofun⟩
  case b2sCompress => exact lengthsLegal_congr hctx rfl rfl rfl rfl
  all_goals
    rw [effectOf_ctx]
    · exact hctx
    all_goals nofun

/-! ### Commands -/

/-- No command raises the code NONE: none checks for it. -/
theorem code_ne_none_of_mem_checksOf {i : Instr} {s : State} {k : Check} (hk : k ∈ checksOf i s) :
    k.code ≠ .none := by
  revert k
  cases i <;> simp [checksOf]

/-- Raising an error keeps the invariant: only STATUS and ERRCODE change, and together (R285). -/
theorem inv_raiseError {c : ErrorCode} {s : State} (hc : c ≠ .none) (h : s.inv) : (raiseError c s).inv := by
  obtain ⟨hwf, hwithin, hcfg, -, hctx, -⟩ := h
  exact ⟨hwf, hwithin, hcfg, ⟨nofun, by simpa using hc, fun _ => rfl⟩, hctx, fun _ => rfl⟩

/-- Every command keeps the invariant. -/
theorem inv_exec {i : Instr} {s t : State} (h : s.inv) (hexec : exec i s = .next t) : t.inv := by
  have ⟨hwf, hwithin, hcfg, ⟨hrunning, herr, hdone⟩, hctx, hreset⟩ := h
  obtain ⟨c, hfirst, rfl⟩ | ⟨hfirst, rfl⟩ := exec_cases i s t hexec
  · obtain ⟨k, hk, -, rfl⟩ := exists_check_of_firstError hfirst
    exact inv_raiseError (code_ne_none_of_mem_checksOf hk) h
  · have hwf' := exec_wf hwf hexec
    obtain ⟨hsame, -⟩ := commandsWriteOnlyTheirWriteSet i s _ hwf hexec
    obtain ⟨_, _, hlengths⟩ := disturb_ctx_frame i s (effectOf i s)
    refine ⟨hwf', ?_, ?_, ⟨nofun, ?_, fun _ => rfl⟩, ?_, fun _ => rfl⟩
    · simpa using within_of_sameOutside hwf hwf' hwithin (writeSet_inRange hfirst) hsame
    · simpa using hcfg
    · simpa using herr
    · rw [complete_ctx, hlengths]
      exact lengthsLegal_congr (effectOf_lengthsLegal hfirst hctx) rfl rfl rfl rfl

/-! ### Host moves -/

theorem reset_lengthsLegal : Ctx.reset.lengthsLegal := by decide

/-- Settles O57: no byte is listed, no flag set and no context open. -/
theorem resetMeetsTheInvariant : Obligations.ResetMeetsTheInvariant :=
  ⟨reset_mem_wf, nofun, by decide, by decide, reset_lengthsLegal, nofun⟩

/-- A register write keeps the invariant: an acceptance clears ERR and ERRCODE together, and no write touches the
lengths. -/
theorem inv_writeReg (r : Reg) (v : Word) {s : State} (h : s.inv) : (writeReg r v s).inv := by
  have ⟨hwf, hwithin, hcfg, ⟨hrunning, herr, hdone⟩, hctx, hreset⟩ := h
  obtain hwrite | ⟨hrst, ⟨-, hwrite⟩ | ⟨-, hbusy, hwrite⟩ | ⟨-, -, hwrite⟩ | ⟨_, _, _, _, _, _, _, _, hwrite⟩⟩ :=
    writeReg_cases r v s
  · rwa [hwrite]
  · rw [hwrite]
    exact h
  · rw [hwrite]
    exact h
  · rw [hwrite]
    exact ⟨hwf, hwithin, hcfg, ⟨fun _ => ⟨rfl, rfl⟩, by simp, nofun⟩, hctx,
      fun hset => absurd (hrst.symm.trans hset) nofun⟩
  · rw [hwrite]
    exact h

/-- A host write of memory in range keeps the invariant, stored or lost. -/
theorem inv_hostMemWrite {address : Word} (v : Byte) {s : State} (haddr : address.toNat < s.cfg.memSize) (h : s.inv) :
    (hostMemWrite address v s).inv := by
  obtain ⟨hwf, hwithin, hrest⟩ := h
  refine ⟨hostMemWrite_wf address v s hwf, ?_, hrest⟩
  rw [hostMemWrite_mem]
  split
  · exact hwithin
  · exact within_write _ _ _ v hwithin haddr

/-- Reset keeps the invariant: the registers take their reset values, and the bytes made free are in range. -/
theorem inv_assertReset {s : State} (h : s.inv) : (assertReset s).inv := by
  obtain ⟨hwf, hwithin, hcfg, -, -, -⟩ := h
  have hwf' := scramble_wf s.freeCtr (runningWriteSet s) s.mem hwf
  refine ⟨hwf', ?_, hcfg, ⟨nofun, ⟨nofun, fun hne => absurd rfl hne⟩, nofun⟩, reset_lengthsLegal, fun _ => rfl⟩
  exact within_of_sameOutside (s := s) hwf hwf' hwithin (runningWriteSet_inRange s) fun a ha =>
    (resetKeepsMemory s a hwf).1 ha

theorem decodeErrorCode_ne_none (e : DecodeError) : decodeErrorCode e ≠ .none := by
  cases e <;> nofun

/-- Settles O58: each case of a step keeps the invariant. -/
theorem stepKeepsTheInvariant : Obligations.StepKeepsTheInvariant := by
  intro s t h hstep
  obtain ⟨i, -, -, hexec⟩ | ⟨e, -, -, rfl⟩ | ⟨-, -, rfl⟩ | ⟨a, rest, -, -, hmove⟩ := step_next_cases hstep
  · exact inv_exec h hexec
  · exact inv_raiseError (decodeErrorCode_ne_none e) h
  · exact h
  · have htaken : { s with host := rest, latency := s.latency - 1 }.inv := h
    obtain ⟨offset, v, rfl, rfl⟩ | ⟨-, -, d, b, n, l, rfl⟩ | ⟨address, v, rfl, haddr, rfl⟩ | ⟨level, rfl, rfl⟩ :=
      hostMove_cases hmove
    · exact inv_writeReg _ v htaken
    · exact h
    · exact inv_hostMemWrite v haddr htaken
    · cases level
      · obtain ⟨hwf, hwithin, hcfg, hflags, hctx, -⟩ := h
        exact ⟨hwf, hwithin, hcfg, hflags, hctx, nofun⟩
      · exact inv_assertReset htaken

end Sys2Proof.Machine

/-! SMIX: the slots of V after the fill phase, the chain after each mix step, and the command (spec 44_blockmix_smix.md
R233 to R236); and the all-zero block as a fixed point of the cores (41_stream_cipher_cores.md R145). -/

namespace Sys2Proof.Machine

/-! ### The all-zero block -/

theorem doubleRound_zeroBlock (c : Cipher) : doubleRound c zeroBlock = zeroBlock := by
  cases c <;> decide +kernel

theorem addBlocks_zeroBlock : addBlocks zeroBlock zeroBlock = zeroBlock := by decide

/-- Settles O48: every double round fixes the all-zero block, and so does the feed-forward. -/
theorem zeroBlockIsFixedByBothCores : Obligations.ZeroBlockIsFixedByBothCores := by
  intro c rounds
  have hrounds : forLoop (rounds / 2) (fun _ x => doubleRound c x) zeroBlock = zeroBlock :=
    forLoop_keeps (· = zeroBlock) _ _ _ rfl fun _ _ x hx => hx ▸ doubleRound_zeroBlock c
  rw [cipherCore, hrounds, addBlocks_zeroBlock]

/-! ### Chains in memory -/

theorem readBytes_congr {m m' : Memory} {a n : Nat} (h : ∀ x, a ≤ x → x < a + n → m.read x = m'.read x) :
    m.readBytes a n = m'.readBytes a n := by
  refine List.map_congr_left fun k hk => h (a + k) (Nat.le_add_right a k) ?_
  have := List.mem_range.mp hk
  omega

/-- The blocks of a chain whose bytes lie at an address (R232). -/
theorem readBytes_block_of_chain {m : Memory} {a : Nat} {x : Chain} (h : m.readBytes a (64 * x.length) = bytesOfChain x)
    {i : Nat} (hi : i < x.length) : m.readBytes (a + 64 * i) 64 = bytesOfBlock x[i] := by
  induction x generalizing a i with
  | nil => cases hi
  | cons b x ih =>
    have hsplit : m.readBytes a 64 ++ m.readBytes (a + 64) (64 * x.length) = bytesOfBlock b ++ bytesOfChain x := by
      rw [← readBytes_add, Nat.add_comm 64, ← Nat.mul_succ]
      exact h
    obtain ⟨hfirst, hrest⟩ := List.append_inj hsplit (by simp)
    cases i with
    | zero => exact hfirst
    | succ i =>
      rw [Nat.mul_succ, Nat.add_comm (64 * i), ← Nat.add_assoc]
      exact ih hrest (Nat.lt_of_succ_lt_succ hi)

/-- A chain whose bytes lie at an address is the chain read there (R232). -/
theorem readChain_of_readBytes {m : Memory} {a r : Nat} {x : Chain} (hx : x.length = 2 * r)
    (h : m.readBytes a (128 * r) = bytesOfChain x) : readChain m a r = x := by
  have hbytes : m.readBytes a (64 * x.length) = bytesOfChain x := by
    rw [← h, hx, ← Nat.mul_assoc]
  apply List.ext_getElem
  · rw [length_readChain, hx]
  · intro i _ hi
    simp [readChain, readBytes_block_of_chain hbytes hi]

/-! ### The fill phase -/

section

variable (c : Cipher) (rounds r v : Nat) {l : SmixLoop}

/-- After `k` steps X is the chain mixed `k` times (R233). -/
theorem smixFill_x (k : Nat) : (smixFill c rounds r v k l).x = (blockMix c rounds r)^[k] l.x := by
  induction k with
  | zero => rfl
  | succ k ih =>
    rw [Function.iterate_succ_apply', ← ih]
    rfl

variable (hwf : l.mem.wf) (hx : l.x.length = 2 * r)

include hwf hx

/-- Slot `i` of V holds the chain mixed `i` times, from the step that writes it on (R233). -/
theorem readBytes_smixFill_slot {k i : Nat} (hi : i < k) :
    (smixFill c rounds r v k l).mem.readBytes (v + i * (128 * r)) (128 * r) =
      bytesOfChain ((blockMix c rounds r)^[i] l.x) := by
  induction k with
  | zero => cases hi
  | succ k ih =>
    have hlen : (smixFill c rounds r v k l).x.length = 2 * r :=
      forLoop_keeps (fun l : SmixLoop => l.x.length = 2 * r) k _ _ hx fun _ _ _ _ => length_blockMix ..
    have hbytes : (bytesOfChain (smixFill c rounds r v k l).x).length = 128 * r := by
      rw [length_bytesOfChain, hlen]
      omega
    have hwf' := smixFill_wf c rounds r v k l hwf
    rw [smixFill_succ_mem]
    obtain hlast | hearlier := Nat.lt_succ_iff_lt_or_eq.mp hi |>.symm
    · subst hlast
      rw [readBytes_writeBytes_of_length hwf' _ hbytes, smixFill_x]
    · rw [← ih hearlier]
      refine readBytes_congr fun a _ ha => read_writeBytes_of_outside hwf' ?_
      have hbelow : (i + 1) * (128 * r) ≤ k * (128 * r) := Nat.mul_le_mul_right _ hearlier
      rw [Nat.succ_mul] at hbelow
      omega

/-- The chain read from slot `i` is the chain mixed `i` times. -/
theorem readChain_smixFill_slot {k i : Nat} (hi : i < k) :
    readChain (smixFill c rounds r v k l).mem (v + i * (128 * r)) r = (blockMix c rounds r)^[i] l.x := by
  refine readChain_of_readBytes ?_ (readBytes_smixFill_slot c rounds r v hwf hx hi)
  cases i with
  | zero => exact hx
  | succ i =>
    rw [Function.iterate_succ_apply']
    exact length_blockMix ..

end

/-! ### The mix phase -/

/-- The loop of SMIX after `k` steps of the mix phase (R233). -/
def smixMixed (c : Cipher) (rounds r n v : Nat) (l : SmixLoop) (k : Nat) : SmixLoop :=
  forLoop k (fun _ l => smixMixStep c rounds r n v l) (smixFill c rounds r v n l)

theorem smixRun_eq_smixMixed (c : Cipher) (rounds r n v : Nat) (l : SmixLoop) :
    smixRun c rounds r n v l = smixMixed c rounds r n v l n := rfl

theorem smixMixed_succ (c : Cipher) (rounds r n v : Nat) (l : SmixLoop) (k : Nat) :
    smixMixed c rounds r n v l (k + 1) = smixMixStep c rounds r n v (smixMixed c rounds r n v l k) := rfl

theorem smixMixed_mem (c : Cipher) (rounds r n v : Nat) (l : SmixLoop) (k : Nat) :
    (smixMixed c rounds r n v l k).mem = (smixFill c rounds r v n l).mem :=
  forLoop_keeps (fun x : SmixLoop => x.mem = (smixFill c rounds r v n l).mem) k _ _ rfl fun _ _ _ hl => hl

/-- A power of two selects an index below it (R234). -/
theorem smixIndex_lt (r : Nat) {n : Nat} (hn : 0 < n) (x : Chain) : smixIndex r n x < n :=
  Nat.lt_of_le_of_lt Nat.and_le_right (Nat.sub_one_lt_of_lt hn)

/-- A mix step XORs in the chain mixed as often as its index says, and mixes (R233). -/
theorem smixMixed_succ_x (c : Cipher) (rounds r v : Nat) {n : Nat} {l : SmixLoop} (hwf : l.mem.wf)
    (hx : l.x.length = 2 * r) (hn : 0 < n) (k : Nat) :
    (smixMixed c rounds r n v l (k + 1)).x = blockMix c rounds r
      (xorChains (smixMixed c rounds r n v l k).x
        ((blockMix c rounds r)^[smixIndex r n (smixMixed c rounds r n v l k).x] l.x)) := by
  rw [← readChain_smixFill_slot c rounds r v hwf hx (smixIndex_lt r hn _), ← smixMixed_mem c rounds r n v l k]
  rfl

/-! ### The command -/

/-- Legal fields and separate, aligned regions in range pass the checks of SMIX (R236, R283). -/
theorem firstError_smix_eq_none {s : State} {nexp : BitVec 5} {rexp : BitVec 3} {rounds : BitVec 8} (c : Cipher)
    (hrounds : evenRounds rounds) (hr : 2 ^ rexp.toNat ≤ s.cfg.rMax) (hnexp : nexp ≠ 0) (halign0 : wordAligned s.arg0)
    (halign1 : wordAligned s.arg1) (hfitsX : s.fits s.arg0 (chainLen rexp))
    (hfitsV : s.fits s.arg1 (smixN nexp * chainLen rexp))
    (hsep : s.arg1.toNat + smixN nexp * chainLen rexp ≤ s.arg0.toNat ∨
      s.arg0.toNat + chainLen rexp ≤ s.arg1.toNat) :
    firstError (checksOf (.smix nexp rexp c rounds) s) = none := by
  have hoverlap :
      ¬regionsOverlap (region s.arg0 (chainLen rexp)) (region s.arg1 (smixN nexp * chainLen rexp)) = true := by
    rw [regionsOverlap_iff]
    omega
  rw [firstError_smix c hrounds hr hnexp]
  simp [wordAligned, halign0, halign1, hoverlap, xRegion, vRegion, inRange_region_iff, hfitsX, hfitsV]

/-- Settles O44: the chains `xs` are those of the mix phase; X goes to its region, apart from the slots of V. -/
theorem smixResult : Obligations.SmixResult := by
  rintro s nexp rexp c rounds _ _ _ ⟨hwf, hundisturbed⟩ rfl rfl rfl hrounds hr hnexp halign0 halign1 hfitsX hfitsV hsep
  have hfirst := firstError_smix_eq_none c hrounds hr hnexp halign0 halign1 hfitsX hfitsV hsep
  have hx : (smixStart rexp s).x.length = 2 * 2 ^ rexp.toNat := length_readChain ..
  have hmem : (smixOf nexp rexp c rounds s).mem =
      (smixFill c rounds.toNat (2 ^ rexp.toNat) s.arg1.toNat (2 ^ nexp.toNat) (smixStart rexp s)).mem := smixRun_mem ..
  have hwf' : (smixOf nexp rexp c rounds s).mem.wf := hmem ▸ smixFill_wf _ _ _ _ _ _ hwf
  have hlen : (bytesOfChain (smixOf nexp rexp c rounds s).x).length = 128 * 2 ^ rexp.toNat :=
    length_bytesOfChain_of_chain (length_smixOf_x nexp rexp c rounds s)
  refine ⟨_, fun k => (smixMixed c rounds.toNat (2 ^ rexp.toNat) (2 ^ nexp.toNat) s.arg1.toNat
      (smixStart rexp s) k).x,
    exec_of_firstError_eq_none hfirst hundisturbed, smixFill_x .., fun k _ =>
      smixMixed_succ_x c _ _ _ hwf hx (Nat.two_pow_pos _) k, readBytes_writeBytes_of_length hwf' _ hlen, fun i hi => ?_,
    effectOf_sameOutside (.smix nexp rexp c rounds) hwf⟩
  refine Eq.trans ?_ (readBytes_smixFill_slot c rounds.toNat (2 ^ rexp.toNat) s.arg1.toNat hwf hx hi)
  rw [← hmem]
  refine readBytes_congr fun a hlo hhi => ?_
  have hslot : (i + 1) * (128 * 2 ^ rexp.toNat) ≤ 2 ^ nexp.toNat * (128 * 2 ^ rexp.toNat) := Nat.mul_le_mul_right _ hi
  rw [Nat.succ_mul] at hslot
  exact read_writeBytes_of_outside hwf' (hlen ▸ by omega)

end Sys2Proof.Machine

/-! What a command does depends on its read set alone: two memories that agree on it, followed through every effect
(spec 20_memory.md R70). -/

namespace Sys2Proof.Machine

/-! ### Memories that agree -/

/-- Two canonical memories that read alike at the addresses of `R`. -/
def agreeOn (R : Nat → Prop) (m m' : Memory) : Prop := m.wf ∧ m'.wf ∧ ∀ a, R a → m'.read a = m.read a

section

variable {R : Nat → Prop} {m m' : Memory} (h : agreeOn R m m')

include h

theorem agreeOn_mono {S : Nat → Prop} (hsub : ∀ a, S a → R a) : agreeOn S m m' := by
  obtain ⟨hwf, hwf', hread⟩ := h
  exact ⟨hwf, hwf', fun a ha => hread a (hsub a ha)⟩

/-- The same byte written to both makes them agree there too. -/
theorem agreeOn_write (a : Nat) (v : Byte) : agreeOn (fun x => R x ∨ x = a) (m.write a v) (m'.write a v) := by
  obtain ⟨hwf, hwf', hread⟩ := h
  refine ⟨wf_write m a v hwf, wf_write m' a v hwf', fun x hx => ?_⟩
  rw [read_write m hwf, read_write m' hwf']
  split
  case isTrue => rfl
  case isFalse hne => exact hread x (hx.resolve_right hne)

/-- The same string written to both makes them agree on its region. -/
theorem agreeOn_writeBytes (a : Nat) (vs : List Byte) :
    agreeOn (fun x => R x ∨ a ≤ x ∧ x < a + vs.length) (m.writeBytes a vs) (m'.writeBytes a vs) := by
  obtain ⟨hwf, hwf', hread⟩ := h
  refine ⟨wf_writeBytes m a vs hwf, wf_writeBytes m' a vs hwf', fun x hx => ?_⟩
  rw [read_writeBytes m hwf, read_writeBytes m' hwf']
  split
  case isTrue => rfl
  case isFalse hout => exact hread x (hx.resolve_right hout)

theorem readBytes_of_agreeOn {a n : Nat} (hR : ∀ x, a ≤ x → x < a + n → R x) : m'.readBytes a n = m.readBytes a n := by
  obtain ⟨-, -, hread⟩ := h
  exact readBytes_congr fun x hlo hhi => hread x (hR x hlo hhi)

theorem readChain_of_agreeOn {a r : Nat} (hR : ∀ x, a ≤ x → x < a + 128 * r → R x) :
    readChain m' a r = readChain m a r := by
  refine List.map_congr_left fun i hi => congrArg blockOfBytes (readBytes_of_agreeOn h fun x hlo hhi => hR x ?_ ?_)
  all_goals
    have := List.mem_range.mp hi
    omega

/-- A loop whose turns compute their byte from `R` alone makes both memories agree on its slots. -/
theorem agreeOn_writeLoop {f : Nat → Memory → Byte} {n : Nat} (dst : Nat)
    (hf : ∀ k < n, ∀ x x', agreeOn R x x' → f k x' = f k x) :
    agreeOn (fun a => R a ∨ dst ≤ a ∧ a < dst + n) (writeLoop f dst n m) (writeLoop f dst n m') := by
  induction n with
  | zero => exact agreeOn_mono h fun a ha => ha.resolve_right (by omega)
  | succ n ih =>
    have hbefore := ih fun k hk => hf k (Nat.lt_succ_of_lt hk)
    have hbyte := hf n (Nat.lt_succ_self n) _ _ (agreeOn_mono hbefore fun a => Or.inl)
    rw [writeLoop_succ, writeLoop_succ, hbyte]
    refine agreeOn_mono (agreeOn_write hbefore (dst + n) _) fun a ha => ?_
    obtain hR | hslot := ha
    · exact .inl (.inl hR)
    · by_cases hlast : a = dst + n
      · exact .inr hlast
      · exact .inl (.inr (by omega))

/-- SWAP of two regions of `R` keeps the agreement. -/
theorem agreeOn_swapLoop {a b n : Nat} (ha : ∀ k < n, R (a + k)) (hb : ∀ k < n, R (b + k)) :
    agreeOn R (swapLoop a b n m) (swapLoop a b n m') := by
  induction n with
  | zero => exact h
  | succ n ih =>
    have hbefore := ih (fun k hk => ha k (Nat.lt_succ_of_lt hk)) fun k hk => hb k (Nat.lt_succ_of_lt hk)
    have ⟨_, _, hread⟩ := hbefore
    rw [swapLoop_succ, swapLoop_succ, hread _ (ha n (Nat.lt_succ_self n)),
      hread _ (hb n (Nat.lt_succ_self n))]
    exact agreeOn_mono (agreeOn_write (agreeOn_write hbefore _ _) _ _) fun x hx => .inl (.inl hx)

end

/-- Two runs of SMIX that agree on `R` and hold the same chain. -/
def smixAgree (R : Nat → Prop) (l l' : SmixLoop) : Prop := agreeOn R l.mem l'.mem ∧ l'.x = l.x

theorem smixAgree_fill {R : Nat → Prop} {l l' : SmixLoop} (h : smixAgree R l l') (c : Cipher) (rounds r v k : Nat) :
    smixAgree R (smixFill c rounds r v k l) (smixFill c rounds r v k l') := by
  induction k with
  | zero => exact h
  | succ k ih =>
    obtain ⟨hmem, hx⟩ := ih
    refine ⟨?_, congrArg (blockMix c rounds r) hx⟩
    rw [smixFill_succ_mem, smixFill_succ_mem, hx]
    exact agreeOn_mono (agreeOn_writeBytes hmem _ _) fun a => Or.inl

/-- The mix phase reads slots of V alone (R234). -/
theorem smixAgree_run {R : Nat → Prop} {l l' : SmixLoop} (h : smixAgree R l l') (c : Cipher) (rounds r v : Nat)
    {n : Nat} (hn : 0 < n) (hR : ∀ x, v ≤ x → x < v + n * (128 * r) → R x) :
    smixAgree R (smixRun c rounds r n v l) (smixRun c rounds r n v l') := by
  rw [smixRun_eq_smixMixed, smixRun_eq_smixMixed]
  suffices hall : ∀ k, smixAgree R (smixMixed c rounds r n v l k) (smixMixed c rounds r n v l' k) from hall n
  intro k
  induction k with
  | zero => exact smixAgree_fill h c rounds r v n
  | succ k ih =>
    obtain ⟨hmem, hx⟩ := ih
    refine ⟨hmem, ?_⟩
    have hslot := Nat.mul_le_mul_right (128 * r) (smixIndex_lt r hn (smixMixed c rounds r n v l k).x)
    rw [Nat.succ_mul] at hslot
    have hread := readChain_of_agreeOn hmem (a := v + smixIndex r n (smixMixed c rounds r n v l k).x * (128 * r))
      (r := r) fun x hlo hhi => hR x (by omega) (by omega)
    simp only [smixMixed_succ, smixMixStep, hx, hread]

/-! ### Every command -/

theorem inRegions_of_mem {rs : List Region} {a : Word} {n x : Nat} (hr : region a n ∈ rs) (hlo : a.toNat ≤ x)
    (hhi : x < a.toNat + n) : inRegions rs x = true :=
  (inRegions_eq_true_iff rs x).mpr ⟨_, hr, hlo, hhi⟩

theorem inRegions_region_iff (a : Word) (n x : Nat) :
    inRegions [region a n] x = true ↔ a.toNat ≤ x ∧ x < a.toNat + n := by
  simp [inRegions_eq_true_iff]

/-- Checks read no memory. -/
theorem checksOf_with_mem (i : Instr) (s : State) (m : Memory) : checksOf i { s with mem := m } = checksOf i s := by
  cases i <;> rfl

/-- The context a command leaves depends on its read set. -/
theorem effectOf_ctx_of_agreeOn {i : Instr} {s : State} {m : Memory}
    (h : agreeOn (fun a => inRegions (readSet i s) a = true) s.mem m) :
    (effectOf i { s with mem := m }).ctx = (effectOf i s).ctx := by
  cases i
  case b2sInit keylen outlen =>
    have hkey : m.readBytes s.arg1.toNat keylen.toNat = s.mem.readBytes s.arg1.toNat keylen.toNat :=
      readBytes_of_agreeOn h fun x => inRegions_of_mem (List.mem_singleton_self _)
    simp only [effectOf, b2sInitEffect, hkey]
  case b2sUpdate =>
    have hdata : m.readBytes s.arg1.toNat s.arg3.toNat = s.mem.readBytes s.arg1.toNat s.arg3.toNat :=
      readBytes_of_agreeOn h fun x => inRegions_of_mem (List.mem_singleton_self _)
    simp only [effectOf, b2sUpdateEffect, hdata]
  case b2sFinal => rfl
  case b2sCompress =>
    have hblock : m.readBytes s.arg1.toNat 64 = s.mem.readBytes s.arg1.toNat 64 :=
      readBytes_of_agreeOn h fun x => inRegions_of_mem (List.mem_singleton_self _)
    simp only [effectOf, b2sCompressEffect, hblock]
  all_goals
    rw [effectOf_ctx, effectOf_ctx]
    all_goals nofun

section

variable {s : State} {m : Memory}

/-- A core command reads the block at ARG0 and writes it (R146, R147). -/
theorem agreeOn_coreCommand (c : Cipher) (rounds : BitVec 8)
    (h : agreeOn (fun a => inRegions [region s.arg0 64] a = true) s.mem m) :
    agreeOn (fun a => inRegions [region s.arg0 64] a = true) (effectOf (coreCommand c rounds) s).mem
      (effectOf (coreCommand c rounds) { s with mem := m }).mem := by
  have hblock : m.blockAt s.arg0 = s.mem.blockAt s.arg0 :=
    congrArg blockOfBytes (readBytes_of_agreeOn h fun x => inRegions_of_mem (List.mem_singleton_self _))
  rw [effectOf_coreCommand_mem, effectOf_coreCommand_mem]
  simp only [hblock]
  exact agreeOn_mono (agreeOn_writeBytes h _ _) fun a => Or.inl

/-- SMIX reads and writes X and V (R236). -/
theorem agreeOn_smix (nexp : BitVec 5) (rexp : BitVec 3) (c : Cipher) (rounds : BitVec 8)
    (h : agreeOn (fun a => inRegions [xRegion s rexp, vRegion s nexp rexp] a = true) s.mem m) :
    agreeOn (fun a => inRegions [xRegion s rexp, vRegion s nexp rexp] a = true)
      (effectOf (.smix nexp rexp c rounds) s).mem (effectOf (.smix nexp rexp c rounds) { s with mem := m }).mem := by
  have hstart : smixAgree (fun a => inRegions [xRegion s rexp, vRegion s nexp rexp] a = true) (smixStart rexp s)
      (smixStart rexp { s with mem := m }) :=
    ⟨h, readChain_of_agreeOn h fun x => inRegions_of_mem (List.mem_cons_self ..)⟩
  obtain ⟨hmem, hx⟩ := smixAgree_run hstart c rounds.toNat (chainR rexp) s.arg1.toNat (n := smixN nexp)
    (Nat.two_pow_pos _) fun x => inRegions_of_mem (List.mem_cons_of_mem _ (List.mem_singleton_self _))
  have hchain : (smixOf nexp rexp c rounds { s with mem := m }).x = (smixOf nexp rexp c rounds s).x := hx
  rw [effectOf_smix_mem, effectOf_smix_mem, hchain]
  exact agreeOn_mono (agreeOn_writeBytes hmem _ _) fun a => Or.inl

/-- The bytes a command writes depend on its read set (R70). -/
theorem effectOf_mem_of_agreeOn {i : Instr} (hlengths : s.ctx.lengthsLegal)
    (hfirst : firstError (checksOf i s) = none)
    (h : agreeOn (fun a => inRegions (readSet i s) a = true) s.mem m) :
    agreeOn (fun a => inRegions (writeSet i s) a = true) (effectOf i s).mem (effectOf i { s with mem := m }).mem := by
  have hwritten : ∀ {a : Word} {n : Nat} {vs : List Byte}, vs.length = n →
      agreeOn (fun x => inRegions [region a n] x = true) (s.mem.writeBytes a.toNat vs) (m.writeBytes a.toNat vs) := by
    rintro a _ vs rfl
    exact agreeOn_mono (agreeOn_writeBytes h a.toNat vs) fun x hx => .inr ((inRegions_region_iff ..).mp hx)
  cases i
  case nop | b2sInit | b2sUpdate | b2sCompress => exact agreeOn_mono h nofun
  case copy =>
    refine agreeOn_mono (agreeOn_writeLoop h (f := fun k m => m.read (s.arg1.toNat + k)) (n := s.arg3.toNat)
      s.arg0.toNat ?_) fun a ha => .inr ((inRegions_region_iff ..).mp ha)
    rintro k hk x x' ⟨-, -, hread⟩
    exact hread _ (inRegions_of_mem (List.mem_singleton_self _) (Nat.le_add_right ..) (Nat.add_lt_add_left hk _))
  case erase =>
    exact agreeOn_mono (agreeOn_writeLoop h (f := fun _ _ => 0) (n := s.arg3.toNat) s.arg0.toNat fun _ _ _ _ _ => rfl)
      fun a ha => .inr ((inRegions_region_iff ..).mp ha)
  case xor =>
    refine agreeOn_mono (agreeOn_writeLoop h (n := s.arg3.toNat)
      (f := fun k m => m.read (s.arg0.toNat + k) ^^^ m.read (s.arg1.toNat + k)) s.arg0.toNat ?_)
      fun a ha => .inr ((inRegions_region_iff ..).mp ha)
    rintro k hk x x' ⟨-, -, hread⟩
    rw [hread _ (inRegions_of_mem (List.mem_cons_self ..) (Nat.le_add_right ..) (Nat.add_lt_add_left hk _)),
      hread _ (inRegions_of_mem (List.mem_cons_of_mem _ (List.mem_singleton_self _)) (Nat.le_add_right ..)
        (Nat.add_lt_add_left hk _))]
  case swap =>
    exact agreeOn_swapLoop h
      (fun k hk => inRegions_of_mem (List.mem_cons_self ..) (Nat.le_add_right ..) (Nat.add_lt_add_left hk _))
      fun k hk => inRegions_of_mem (List.mem_cons_of_mem _ (List.mem_singleton_self _)) (Nat.le_add_right ..)
        (Nat.add_lt_add_left hk _)
  case salsa rounds => exact agreeOn_coreCommand .salsa rounds h
  case chacha rounds => exact agreeOn_coreCommand .chacha rounds h
  case b2sFinal =>
    obtain ⟨-, houtlen, -, -⟩ := hlengths
    exact hwritten (by rw [length_digest, ctxFinal_outlen, min_eq_left houtlen])
  case b2sHash keylen outlen =>
    have hkey : m.readBytes s.arg1.toNat keylen.toNat = s.mem.readBytes s.arg1.toNat keylen.toNat :=
      readBytes_of_agreeOn h fun x => inRegions_of_mem (List.mem_cons_self ..)
    have hinput : m.readBytes s.arg2.toNat s.arg3.toNat = s.mem.readBytes s.arg2.toNat s.arg3.toNat :=
      readBytes_of_agreeOn h fun x => inRegions_of_mem (List.mem_cons_of_mem _ (List.mem_singleton_self _))
    obtain ⟨-, houtlen, -⟩ := legalDigest_of_firstError_eq_none hfirst
    rw [effectOf_b2sHash_mem, effectOf_b2sHash_mem, hkey, hinput]
    exact hwritten (by rw [length_keyedHash, min_eq_left houtlen])
  case fastkdf olenm1 slenm1 =>
    have hpassword : m.readBytes s.arg1.toNat 80 = s.mem.readBytes s.arg1.toNat 80 :=
      readBytes_of_agreeOn h fun x => inRegions_of_mem (List.mem_cons_self ..)
    have hsalt : m.readBytes s.arg2.toNat (slenOf slenm1) = s.mem.readBytes s.arg2.toNat (slenOf slenm1) :=
      readBytes_of_agreeOn h fun x => inRegions_of_mem (List.mem_cons_of_mem _ (List.mem_singleton_self _))
    rw [effectOf_fastkdf_mem, effectOf_fastkdf_mem, hpassword, hsalt]
    exact hwritten (length_fastKdf ..)
  case blkmix rexp c rounds =>
    have hchain : readChain m s.arg0.toNat (chainR rexp) = readChain s.mem s.arg0.toNat (chainR rexp) :=
      readChain_of_agreeOn h fun x => inRegions_of_mem (List.mem_singleton_self _)
    rw [effectOf_blkmix_mem, effectOf_blkmix_mem, hchain]
    exact hwritten (length_bytesOfChain_of_chain (length_blockMix ..))
  case smix nexp rexp c rounds => exact agreeOn_smix nexp rexp c rounds h

end

/-- A command that leaves the same context from both memories leaves states that differ in memory alone. -/
theorem effectOf_with_mem_eq {i : Instr} {s : State} {m : Memory}
    (hctx : (effectOf i { s with mem := m }).ctx = (effectOf i s).ctx) :
    { effectOf i { s with mem := m } with mem := (effectOf i s).mem } = effectOf i s := by
  obtain ⟨_, _, heffect⟩ := effectOf_frame i s
  obtain ⟨_, _, heffect'⟩ := effectOf_frame i { s with mem := m }
  rw [heffect, heffect'] at hctx ⊢
  simp only at hctx ⊢
  rw [hctx]

/-- Settles O47: both runs make the same checks, and the effect writes the same context and the same bytes. -/
theorem commandsDependOnlyOnTheirReadSet : Obligations.CommandsDependOnlyOnTheirReadSet := by
  intro i s t t' m ⟨hwf, hundisturbed⟩ hm hlengths hsame hexec hexec'
  have hagree : agreeOn (fun a => inRegions (readSet i s) a = true) s.mem m := ⟨hwf, hm, hsame⟩
  have hchecks := checksOf_with_mem i s m
  cases hfirst : firstError (checksOf i s) with
  | some c =>
    have hfirst' : firstError (checksOf i { s with mem := m }) = some c := hchecks ▸ hfirst
    cases (exec_of_firstError_eq_some hfirst).symm.trans hexec
    cases (exec_of_firstError_eq_some hfirst').symm.trans hexec'
    exact ⟨rfl, nofun⟩
  | none =>
    have hfirst' : firstError (checksOf i { s with mem := m }) = none := by rw [hchecks]; exact hfirst
    cases (exec_of_firstError_eq_none hfirst hundisturbed).symm.trans hexec
    cases (exec_of_firstError_eq_none (s := { s with mem := m }) hfirst' hundisturbed).symm.trans hexec'
    obtain ⟨-, -, hwritten⟩ := effectOf_mem_of_agreeOn hlengths hfirst hagree
    exact ⟨congrArg complete (effectOf_with_mem_eq (effectOf_ctx_of_agreeOn hagree)), fun _ => hwritten⟩

end Sys2Proof.Machine

/-! The length of a FastKDF output: its loop XORs each byte of the ring once, so a shorter output is a prefix of a
longer one (spec 43_fastkdf.md R214, R217). -/

namespace Sys2Proof.Machine

/-- The ring slot that holds byte `k` of the output (R214). -/
def KdfLoop.slot (l : KdfLoop) (k : Nat) : Nat := (l.bufptr + k) % 256

/-- B after `n` bytes of A have been XORed into the ring at bufptr (R214). -/
def outputRing (a : List Byte) (l : KdfLoop) (n : Nat) : List Byte :=
  forLoop n (fun k b => b.set (l.slot k) (b.getD (l.slot k) 0 ^^^ a.getD k 0)) l.b

theorem kdfOutput_eq (a : List Byte) (l : KdfLoop) (olen : Nat) :
    kdfOutput a l olen = (List.range olen).map fun k => (outputRing a l olen).getD (l.slot k) 0 := rfl

theorem outputRing_succ (a : List Byte) (l : KdfLoop) (n : Nat) :
    outputRing a l (n + 1) =
      (outputRing a l n).set (l.slot n) ((outputRing a l n).getD (l.slot n) 0 ^^^ a.getD n 0) := rfl

@[simp] theorem length_outputRing (a : List Byte) (l : KdfLoop) (n : Nat) :
    (outputRing a l n).length = l.b.length :=
  forLoop_keeps (fun b : List Byte => b.length = l.b.length) n _ l.b rfl fun _ _ _ hlen => List.length_set.trans hlen

/-- 256 consecutive offsets fall in distinct slots. -/
theorem slot_inj (l : KdfLoop) {j k : Nat} (hj : j < 256) (hk : k < 256) : l.slot j = l.slot k ↔ j = k := by
  unfold KdfLoop.slot
  omega

theorem slot_lt_length {l : KdfLoop} (hl : l.onRing) (k : Nat) : l.slot k < l.b.length := by
  obtain ⟨-, hlen, -⟩ := hl
  have : l.slot k < 256 := Nat.mod_lt _ (by decide)
  omega

/-- Slot `k` is XORed at turn `k` alone. -/
theorem getD_outputRing {a : List Byte} {l : KdfLoop} (hl : l.onRing) {n k : Nat} (hn : n ≤ 256) (hk : k < 256) :
    (outputRing a l n).getD (l.slot k) 0 =
      if k < n then l.b.getD (l.slot k) 0 ^^^ a.getD k 0 else l.b.getD (l.slot k) 0 := by
  induction n with
  | zero => rfl
  | succ n ih =>
    have hslot := slot_inj l hk (show n < 256 by omega)
    rw [outputRing_succ, getD_set, length_outputRing]
    by_cases hlast : k = n
    · subst hlast
      rw [if_pos ⟨rfl, slot_lt_length hl k⟩, ih (by omega), if_neg (by omega), if_pos (by omega)]
    · rw [if_neg (by simp [hslot, hlast]), ih (by omega)]
      simp only [show k < n + 1 ↔ k < n by omega]

/-- Byte `k` of the output is byte `k` of A XORed with the ring's byte, whatever the length of the output. -/
theorem kdfOutput_eq_map {a : List Byte} {l : KdfLoop} (hl : l.onRing) {olen : Nat} (holen : olen ≤ 256) :
    kdfOutput a l olen = (List.range olen).map fun k => l.b.getD (l.slot k) 0 ^^^ a.getD k 0 := by
  rw [kdfOutput_eq]
  refine List.map_congr_left fun k hk => ?_
  have hk := List.mem_range.mp hk
  rw [getD_outputRing hl holen (by omega), if_pos hk]

/-- Settles O55: the loop state does not depend on the length, and each byte of the output has its own equation. -/
theorem shorterKdfOutputIsAPrefix : Obligations.ShorterKdfOutputIsAPrefix := by
  intro password salt slen olen n hn holen
  have hring := onRing_kdfLoop (kdfBufferA password) (isRing_kdfBufferB salt slen) 32
  simp only [fastKdf]
  rw [kdfOutput_eq_map hring holen, kdfOutput_eq_map hring (hn.trans holen), ← List.map_take, List.take_range,
    Nat.min_eq_left hn]

end Sys2Proof.Machine

/-! The host's NeoScrypt sequence: the profiles it accepts and the words it writes to CMD (spec
45_control_and_host.md R256 to R263). -/

namespace Sys2Proof.Machine

/-- The profile that bit 0 of the word selects (R257). -/
def baseProfile (p : Word) : Profile :=
  if p.getLsbD 0 then { n := 1024, r := 1, mixing := .single 8 } else { n := 128, r := 2, mixing := .dual 20 20 }

/-- The profile before the host's tests: N and r come from the word when bit 31 is set (R258). -/
def selectedProfile (cfg : Params) (p : Word) : Profile :=
  if p.getLsbD 31 then
    { baseProfile p with
      n := 2 ^ ((p.extractLsb' 8 5).toNat + cfg.nExpBias), r := 2 ^ (p.extractLsb' 5 3).toNat }
  else baseProfile p

/-- The four tests a profile word passes to be accepted (R261). -/
theorem decodeProfile_eq_some_iff {cfg : Params} {p : Word} {f : Profile} :
    decodeProfile cfg p = some f ↔
      p.extractLsb' 13 18 = 0 ∧ p.extractLsb' 1 4 = 0 ∧ ¬(p.getLsbD 31 = true ∧ (p.extractLsb' 8 5).toNat = 0) ∧
        (selectedProfile cfg p).r ≤ 2 ∧ selectedProfile cfg p = f := by
  have hdef : decodeProfile cfg p =
      if p.extractLsb' 13 18 ≠ 0 then none
      else if p.extractLsb' 1 4 ≠ 0 then none
      else if p.getLsbD 31 = true ∧ (p.extractLsb' 8 5).toNat = 0 then none
      else if 2 < (selectedProfile cfg p).r then none
      else some (selectedProfile cfg p) := rfl
  simp only [hdef, Option.ite_none_left_eq_some, not_not, Nat.not_lt, Option.some.injEq]

/-- Both base profiles are in range. -/
theorem baseProfile_inRange (p : Word) :
    ((baseProfile p).r = 1 ∨ (baseProfile p).r = 2) ∧ ∃ k, 1 ≤ k ∧ (baseProfile p).n = 2 ^ k := by
  unfold baseProfile
  split
  · exact ⟨.inl rfl, 10, by decide, rfl⟩
  · exact ⟨.inr rfl, 7, by decide, rfl⟩

theorem two_pow_eq_one_or_two {k : Nat} (h : 2 ^ k ≤ 2) : 2 ^ k = 1 ∨ 2 ^ k = 2 := by
  have hk : k ≤ 1 := (Nat.pow_le_pow_iff_right (a := 2) (by decide)).mp h
  interval_cases k
  · exact .inl rfl
  · exact .inr rfl

/-- Settles O59: without bit 31 the profile is a base profile; with it N has a positive exponent and r passed the
test of R261. -/
theorem acceptedProfilesAreInRange : Obligations.AcceptedProfilesAreInRange := by
  intro cfg p f hdecode
  obtain ⟨hreserved, hmode, hexp, hr, rfl⟩ := decodeProfile_eq_some_iff.mp hdecode
  refine ⟨hreserved, hmode, ?_⟩
  unfold selectedProfile at hr ⊢
  by_cases hoverride : p.getLsbD 31 = true
  · rw [if_pos hoverride] at hr ⊢
    have hpos : (p.extractLsb' 8 5).toNat ≠ 0 := fun hzero => hexp ⟨hoverride, hzero⟩
    exact ⟨two_pow_eq_one_or_two hr, _, by omega, rfl⟩
  · rw [if_neg hoverride]
    exact baseProfile_inRange p

/-- The words written to CMD, in order (R263). -/
def cmdWords (moves : List HostAction) : List Word :=
  moves.filterMap fun a => match a with | .wr offset v => if offset = 0 then some v else none | _ => none

theorem decodeProfile_default_zero :
    decodeProfile Params.default 0 = some { n := 128, r := 2, mixing := .dual 20 20 } := by decide

theorem decodeProfile_default_one :
    decodeProfile Params.default 1 = some { n := 1024, r := 1, mixing := .single 8 } := by decide

theorem neoscryptSequence_of_not_separate {f : Profile} {at_ : Placement} (h : ¬at_.separate f = true) :
    neoscryptSequence f at_ = none := by
  simp [neoscryptSequence, guard, h]

/-- The dual sequence with N = 128 and r = 2: fill X, copy it to Z, mix both, add them, and derive the output. -/
theorem cmdWords_neoscryptSequence_dual {at_ : Placement}
    (h : at_.separate { n := 128, r := 2, mixing := .dual 20 20 } = true) :
    (neoscryptSequence { n := 128, r := 2, mixing := .dual 20 20 } at_).map cmdWords =
      some [0x00FF4F18, 0x00000001, 0x00731421, 0x00721421, 0x00000003, 0x001FFF18] := by
  simp only [neoscryptSequence, guard, h, if_true]
  rfl

/-- The single sequence with N = 1024 and r = 1: fill X, mix it, and derive the output. -/
theorem cmdWords_neoscryptSequence_single {at_ : Placement}
    (h : at_.separate { n := 1024, r := 1, mixing := .single 8 } = true) :
    (neoscryptSequence { n := 1024, r := 1, mixing := .single 8 } at_).map cmdWords =
      some [0x007F4F18, 0x00A00821, 0x001F7F18] := by
  simp only [neoscryptSequence, guard, h, if_true]
  rfl

/-- Settles O60: both profile words decode; buffers apart give the words listed, and others no sequence. -/
theorem sequenceCommandWords : Obligations.SequenceCommandWords := by
  intro at_ words
  simp only [neoscrypt, decodeProfile_default_zero, decodeProfile_default_one, Option.bind_some]
  constructor
  · split
    next hapart => exact cmdWords_neoscryptSequence_dual hapart
    next hnot => rw [neoscryptSequence_of_not_separate hnot, Option.map_none]
  · split
    next hapart => exact cmdWords_neoscryptSequence_single hapart
    next hnot => rw [neoscryptSequence_of_not_separate hnot, Option.map_none]

end Sys2Proof.Machine
